-- ==== Sys2Proof/Word.lean ====
section
/-! DEFINITION. The machine's plain data: words, bytes, the 4×4 grid and one of its rows (spec/00_scope.md R6, R10;
spec/10_state.md R21, R22). -/

namespace Sys2Proof

/-- A state word: an unsigned integer in [0, 65535] (R6 `W = 16`, R11). -/
abbrev Word := BitVec 16

/-- An output byte (R6 `OUT_BYTES`, R34). -/
abbrev Byte := BitVec 8

/-- The state grid as its sixteen words `G[0]` to `G[15]`, `grid[i][j] = G[4*i + j]` (R21). -/
abbrev Grid := Vector Word 16

/-- The flat index `n = 4*i + j` of `grid[i][j]` (R12, R21). -/
def flat (i j : Fin 4) : Fin 16 := ⟨4 * i.val + j.val, by omega⟩

/-- The four words of one row under SubRows' names (R22). -/
structure Row where
  p : Word
  q : Word
  r : Word
  s : Word
deriving DecidableEq, Repr

end Sys2Proof
end

