-- ==== Sys2Proof/Syntax.lean ====
section
/-! DEFINITION. The engine's operations: the two host commands and the six micro-operations of spec/30_encoding.md R70, one
constructor per row of spec/opcode_table.json. -/

namespace Sys2Proof

/-- An operation with the operand fields of its encoding (R72, R73). A command's operand is the whole of `cmd_data` as an
unsigned integer (R77); a micro-operation's only operand field is the round index `rnd`, which four of the six ignore (R73). -/
inductive Instr where
  /-- `CONFIGURE cfg`, format CMD, `cmd_op = 0` (R161). -/
  | configure (cfg : Nat)
  /-- `PERMUTE x`, format CMD, `cmd_op = 1` (R162). -/
  | permute (x : Nat)
  /-- `LOAD`, format UOP, ph 0; its operand `x` comes from `cmd_data`, not from the UOP word (R74, R110). -/
  | load (rnd : BitVec 4)
  /-- `SUBROWS`, format UOP, ph 1 (R120). -/
  | subrows (rnd : BitVec 4)
  /-- `MIXSLICES`, format UOP, ph 2 (R130). -/
  | mixslices (rnd : BitVec 4)
  /-- `SHIFTPLANES i`, format UOP, ph 3, `rnd = i` (R140). -/
  | shiftplanes (rnd : BitVec 4)
  /-- `ADDCONSTANT i`, format UOP, ph 4, `rnd = i` (R151). -/
  | addconstant (rnd : BitVec 4)
  /-- `STORE`, format UOP, ph 5 (R112). -/
  | store (rnd : BitVec 4)
deriving DecidableEq, Repr

end Sys2Proof
end

