-- ==== Sys2Proof/WellFormed.lean ====
section
/-! DEFINITION. Which terms of `Instr` an encoding stands for, on a bus of `dinW` bits (spec/30_encoding.md R72, R73). -/

namespace Sys2Proof

/-- A command's operand fits the bus, `cmd_data[DIN_W-1:0]` (R72). Every micro-operation is well formed: its one field has all
sixteen values (R73). -/
def Instr.wellFormed (dinW : Nat) : Instr → Bool
  | .configure cfg => decide (cfg < 2 ^ dinW)
  | .permute x => decide (x < 2 ^ dinW)
  | .load _ => true
  | .subrows _ => true
  | .mixslices _ => true
  | .shiftplanes _ => true
  | .addconstant _ => true
  | .store _ => true

end Sys2Proof
end

