-- ==== Sys2Proof/Decode.lean ====
section
/-! DEFINITION. The decoder (spec/30_encoding.md R72 to R74, R78 to R80) and, after it, the encoder, written from the same two
formats. The engine fetches no instruction: a command is decoded from the ports `(cmd_op, cmd_data)`, a micro-operation from
the registers `(PH, RND)`. The forms "written as one word" of R72 and R73 are decoded through those. -/

namespace Sys2Proof

/-- Why a word is no operation of the engine. -/
inductive DecodeError where
  /-- `ph` is 6 or 7, which R74 and R78 reserve. -/
  | reservedPhase
  /-- The word has a bit set above the bits of its format (DESIGN CHOICE, safe, log 18). -/
  | strayBits
  /-- The length is that of neither format CMD nor format UOP (R79; log 18). -/
  | badLength
deriving DecidableEq, Repr

/-- Format CMD: both values of `cmd_op` are defined (R72, R80). -/
def decodeCmd (op : BitVec 1) (data : Nat) : Instr :=
  if op = 0 then .configure data else .permute data

/-- Format UOP: the pair `(PH, RND)` is the encoded micro-operation (R73, R74). -/
def decodeUop (ph : BitVec 3) (rnd : BitVec 4) : Except DecodeError Instr :=
  match ph.toNat with
  | 0 => .ok (.load rnd)
  | 1 => .ok (.subrows rnd)
  | 2 => .ok (.mixslices rnd)
  | 3 => .ok (.shiftplanes rnd)
  | 4 => .ok (.addconstant rnd)
  | 5 => .ok (.store rnd)
  | _ => .error .reservedPhase

/-- Format CMD written as one word of `1 + DIN_W` bits: bit `DIN_W` is `op`, bits `[DIN_W-1:0]` are `data` (R72). -/
def decodeCmdWord (dinW w : Nat) : Except DecodeError Instr :=
  if w < 2 ^ (dinW + 1) then .ok (decodeCmd (BitVec.ofNat 1 (w >>> dinW)) (w % 2 ^ dinW)) else .error .strayBits

/-- Format UOP written as one 7-bit word: bits `[6:4]` are `ph`, bits `[3:0]` are `rnd` (R73). -/
def decodeUopWord (w : Nat) : Except DecodeError Instr :=
  if w < 2 ^ 7 then decodeUop (BitVec.ofNat 3 (w >>> 4)) (BitVec.ofNat 4 w) else .error .strayBits

/-- A number of bits rounded up to whole bytes. -/
def wholeBytes (nbits : Nat) : Nat := (nbits + 7) / 8 * 8

/-- The decoder on a word of `nbits` bits: the length tells the format, since there is one command length and one
micro-operation length (R79). A length rounded up to whole bytes is read as the format's own, its padding bits 0. -/
def decodeWord (dinW nbits w : Nat) : Except DecodeError Instr :=
  if nbits = 7 ∨ nbits = wholeBytes 7 then decodeUopWord w
  else if nbits = dinW + 1 ∨ nbits = wholeBytes (dinW + 1) then decodeCmdWord dinW w
  else .error .badLength

/-- The decoder on a word of spec/opcode_table.json, which is written for the default `DIN_W = 256` (its notes; R72). -/
def decodeTableWord (nbits w : Nat) : Option Instr :=
  (decodeWord 256 nbits w).toOption

/-- How many bits the operation's format has (R72, R73). -/
def encodedBits (dinW : Nat) : Instr → Nat
  | .configure _ => dinW + 1
  | .permute _ => dinW + 1
  | .load _ => 7
  | .subrows _ => 7
  | .mixslices _ => 7
  | .shiftplanes _ => 7
  | .addconstant _ => 7
  | .store _ => 7

/-- A UOP word: `{ph, rnd}`, `ph` in the high bits (R73). -/
def uopWord (ph rnd : Nat) : Nat := ph <<< 4 + rnd

/-- The word of an operation, as a number (R72, R73, R74). -/
def encode (dinW : Nat) : Instr → Nat
  | .configure cfg => cfg
  | .permute x => 1 <<< dinW + x
  | .load rnd => uopWord 0 rnd.toNat
  | .subrows rnd => uopWord 1 rnd.toNat
  | .mixslices rnd => uopWord 2 rnd.toNat
  | .shiftplanes rnd => uopWord 3 rnd.toNat
  | .addconstant rnd => uopWord 4 rnd.toNat
  | .store rnd => uopWord 5 rnd.toNat

end Sys2Proof
end

