-- ==== Sys2Proof/Config.lean ====
section
/-! DEFINITION. The engine's parameters, which the spec leaves open (spec/00_scope.md R7, R8; spec/92_eei_decisions.md D3, D4,
D16, D17), and the free values, which stand for what the spec calls unspecified (spec/10_state.md R24, R32, R34;
spec/70_reset_and_hazards.md R221). Nothing here has a value that a proof could see. -/

namespace Sys2Proof

/-- One choice of the open parameters. The pure layer functions take it as an argument, so that a claim can be made for
every parameter set and a test can name one. `T_UOP` (R8) is no field: the model has no time (log 15). -/
structure Params where
  /-- `C1`: first round constant, used at even flat index (R7). -/
  c1 : Word
  /-- `C2`: second round constant, used at odd flat index (R7, R154). -/
  c2 : Word
  /-- `ROT[parity][row]`: rotation amounts, each in [0, 15] (R7, R141). -/
  rot : Fin 2 → Fin 4 → BitVec 4
  /-- `M[n][k]`: whether input word `k` is XORed into output word `n` (R7, R131). -/
  m : Fin 16 → Fin 16 → Bool
  /-- `DIN_W - 256`: how far the operand bus is wider than 256 bits (R8: "any integer ≥ 256"). -/
  dinExtra : Nat
  /-- `CFG_OK`: the one supported configuration value, an unsigned integer of `DIN_W` bits (R8). -/
  cfgOk : BitVec (256 + dinExtra)
deriving Inhabited

/-- `DIN_W`: the width of `cmd_data` (R8, R71). -/
def Params.dinW (P : Params) : Nat := 256 + P.dinExtra

/-- The parameters of this engine. DESIGN CHOICE (safe, logs 7 to 9): an opaque constant, since the spec gives no value it
stands by; every claim about the machine therefore holds for every parameter set. -/
opaque Config.params : Params

/-- FREE VALUE (safe, log 5): word `n` of `G` after the `k`-th occasion on which it becomes unspecified (R24, R221). -/
opaque Config.freeWord : Nat → Fin 16 → Word

/-- FREE VALUE (safe, logs 5 and 6): `RSP_STATUS` while `RSP_VALID = 0`, after the `k`-th such occasion (R32). -/
opaque Config.freeStatus : Nat → BitVec 2

/-- FREE VALUE (safe, logs 5 and 6): `RSP_DATA` while `RSP_VALID = 0`, after the `k`-th such occasion (R34). -/
opaque Config.freeData : Nat → BitVec 256

end Sys2Proof
end

