-- ==== Sys2Proof/Machine/State.lean ====
section
/-! DEFINITION. The machine's state as plain data (spec/10_state.md R20), the statuses of a response (spec/30_encoding.md R76),
the reasons a step can stop, and the state after reset (spec/70_reset_and_hazards.md R221). -/

namespace Sys2Proof.Machine

/-- The two error kinds (R190). -/
inductive ErrorKind where
  /-- Code 1: an unsupported configuration was requested, or none is in force (R191). -/
  | unsupportedConfiguration
  /-- Code 2: the operand of PERMUTE occupies more than 256 bits (R192). -/
  | inputOutOfRange
deriving DecidableEq, Repr

/-- What `respond` can report; three values, code 3 is never produced (R76; spec/93_implementation_defined.md U7). -/
inductive Status where
  | ok
  | error (e : ErrorKind)
deriving DecidableEq, Repr

/-- The engine's complete architectural state: exactly these seven items (R20). -/
structure Engine where
  /-- `G[0..15]` (R21). -/
  g : Grid
  /-- `RND`, the round index (R30). -/
  rnd : BitVec 4
  /-- `PH`, the micro-operation the next engine step performs (R29). -/
  ph : BitVec 3
  /-- `CONFIGURED` (R28). -/
  configured : Bool
  /-- `RSP_VALID` (R31). -/
  rspValid : Bool
  /-- `RSP_STATUS` (R32). -/
  rspStatus : BitVec 2
  /-- `RSP_DATA`, byte `m` at bits [8m+7:8m] (R34). -/
  rspData : BitVec 256
deriving DecidableEq, Repr

/-- The values of the engine's input ports at one edge (R71). `cmd_data` is the whole bus as an unsigned integer, of any size
(R192: "a model that takes `x` as an unbounded natural number"; log 9). -/
structure PortSample where
  rst : Bool
  cmdValid : Bool
  cmdOp : BitVec 1
  cmdData : Nat
  rspReady : Bool
deriving DecidableEq, Repr

/-- All input ports 0: the host does nothing. -/
def PortSample.quiet : PortSample := ⟨false, false, 0, 0, false⟩

/-- Format RSP: what the host receives when it takes a response (R75, R166). -/
structure Response where
  status : BitVec 2
  data : BitVec 256
deriving DecidableEq, Repr

/-- The engine and what surrounds it. `inputs` holds the host's port values, one sample per coming edge, quiet after the last
(log 1); `taken` the responses it has received, oldest first (log 2); `freeCount` numbers the free values (log 5). -/
structure State where
  engine : Engine
  inputs : List PortSample
  taken : List Response
  freeCount : Nat
deriving DecidableEq, Repr

/-- Why the machine stops. -/
inductive Fault where
  /-- Raised by `step` alone, when `PH` is 6 or 7 at an edge without reset. The spec gives such a state no meaning and says a
  model must fault (R29, R78; U6). SAFE: no such state is reachable from reset, and nothing can be proved of what follows. -/
  | reservedPhase (ph : BitVec 3)
deriving DecidableEq, Repr

/-- Why an instruction has no meaning in the model. -/
inductive Refusal where
  /-- Raised by a refused arm of `exec` alone; no arm is refused in this model. SAFE: nothing follows from it. -/
  | notModelled (mnemonic : String)
deriving DecidableEq, Repr

/-- The state right after reset (R221). `PH`, `RND`, `CONFIGURED`, `RSP_VALID` are the spec's. DESIGN CHOICE (unsafe, logs 3
and 4): `G`, `RSP_STATUS`, `RSP_DATA`, which R221 calls unspecified, are 0 here. `inputs`, `taken` and `freeCount` are the
model's own (logs 1, 2, 5). -/
def State.reset : State where
  engine :=
    { g := Vector.replicate 16 0, rnd := 0, ph := 0, configured := false, rspValid := false, rspStatus := 0, rspData := 0 }
  inputs := []
  taken := []
  freeCount := 0

end Sys2Proof.Machine
end

