-- ==== Sys2Proof/Machine/Operands.lean ====
section
/-! DEFINITION. How each operand is formed: the table of spec/30_encoding.md R77, one definition per line of it. -/

namespace Sys2Proof.Machine

/-- `x` is in range iff `x < 2^256`, that is iff `cmd_data[DIN_W-1:256] = 0` (R77, R162). -/
def inRange (x : Nat) : Bool := decide (x < 2 ^ 256)

/-- Word `n` of `x`: `x[16n+15:16n]`, which is `floor(x / 2^(16n)) mod 2^16` (R77, R110). -/
def operandWord (x : Nat) (n : Fin 16) : Word := BitVec.ofNat 16 (x >>> (16 * n.val))

/-- The row of word `n`: `floor(n / 4)` (R77). -/
def rowOf (n : Fin 16) : Fin 4 := ⟨n.val / 4, by omega⟩

/-- The column of word `n`: `n mod 4` (R77). -/
def colOf (n : Fin 16) : Fin 4 := ⟨n.val % 4, by omega⟩

/-- `parity`: `RND[0] = i mod 2` (R77). -/
def parityOf (i : BitVec 4) : Fin 2 := if i.getLsbD 0 then 1 else 0

/-- The right-rotation amount of word `n` in round `i`: `ROT[parity][row]` (R77, R140). -/
def shiftAmount (P : Params) (i : BitVec 4) (n : Fin 16) : Nat := (P.rot (parityOf i) (rowOf n)).toNat

/-- The constant selector of word `n`: `C1` if `n` is even, `C2` if it is odd (R77, R150). -/
def constantOf (P : Params) (n : Fin 16) : Word := if n.val % 2 = 0 then P.c1 else P.c2

/-- The left-rotation amount of the constant of word `n` in round `i`: `i + n`, a natural number in [0, 30] before RotL
reduces it (R77, R150). -/
def constantAmount (i : BitVec 4) (n : Fin 16) : Nat := i.toNat + n.val

/-- The flat indices in increasing order, over which MIXSLICES accumulates (R130). -/
def flatIndices : List (Fin 16) := [0, 1, 2, 3, 4, 5, 6, 7, 8, 9, 10, 11, 12, 13, 14, 15]

/-- Output byte `m`: the low byte of `G[m/2]` if `m` is even, the high byte of `G[(m-1)/2]` if it is odd (R77, R112). -/
def outputByte (g : Grid) (m : Fin 32) : Byte :=
  if m.val % 2 = 0 then (g[m.val / 2]).extractLsb' 0 8 else (g[m.val / 2]).extractLsb' 8 8

/-- Byte `m` of `RSP_DATA`: `OB[m] = RSP_DATA[8m+7:8m]` (spec/10_state.md R34). -/
def outputBuffer (data : BitVec 256) (m : Fin 32) : Byte := data.extractLsb' (8 * m.val) 8

/-- A matrix from its rows in mask form: mask bit `k` has weight `2^k` (spec/43_mixslices.md R131). -/
def matrixOfMasks (masks : Grid) (n k : Fin 16) : Bool := (masks[n]).getLsbD k.val

/-- Row `n` of the matrix in mask form: `MASK[n] = sum over k of M[n][k] * 2^k` (spec/43_mixslices.md R131). -/
def maskOf (P : Params) (n : Fin 16) : Word :=
  flatIndices.foldl (fun acc k => if P.m n k then acc + BitVec.ofNat 16 (2 ^ k.val) else acc) 0

end Sys2Proof.Machine
end

