-- ==== Sys2Proof/Machine/Flags.lean ====
section
/-! DEFINITION. The engine has no condition codes and no flag that a data operation sets (spec/10_state.md R27). What stands
here instead is everything a control decision or an output port is computed from: `cmd_ready`, the loop's exit test, and
what the host can see. The other control input, the round parity, is `parityOf`. -/

namespace Sys2Proof.Machine

/-- `cmd_ready`: `PH = 0` and `RSP_VALID = 0` (R33). -/
def Engine.cmdReady (e : Engine) : Bool := decide (e.ph = 0) && !e.rspValid

/-- The test `i = 15` after ADDCONSTANT, the loop's exit (R27, R170). -/
def lastRound (i : BitVec 4) : Bool := decide (i = 15)

/-- `PH` is one of the two reserved values (R29, R78). -/
def Engine.phaseReserved (e : Engine) : Bool := decide (6 ≤ e.ph.toNat)

/-- The code of an error kind on `rsp_status` (R76, R190). -/
def ErrorKind.code : ErrorKind → BitVec 2
  | .unsupportedConfiguration => 1
  | .inputOutOfRange => 2

/-- The code of a status on `rsp_status` (R76). -/
def Status.code : Status → BitVec 2
  | .ok => 0
  | .error e => e.code

/-- What the host can see of the engine at an edge, through the output ports of R71: `cmd_ready`, and the response while
`rsp_valid = 1` (the model gives the host no read of `rsp_status` and `rsp_data` otherwise: R32, R34, U3). -/
def Engine.outputs (e : Engine) : Bool × Option Response :=
  (e.cmdReady, if e.rspValid then some ⟨e.rspStatus, e.rspData⟩ else none)

end Sys2Proof.Machine
end

