-- ==== Sys2Proof/Machine/Ops.lean ====
section
/-! DEFINITION. The named operations over the state that the meanings and the step share: reading and writing `G`, the control
transfer, `respond` and `raise`, the response take, reset, and moving to the next edge. There is no memory and so no memory
operation (spec/20_memory.md R50). -/

namespace Sys2Proof.Machine

/-- Read of state word `n`, `G[n]` (spec/00_scope.md R10). -/
def State.word (s : State) (n : Fin 16) : Word := s.engine.g[n]

/-- Write of all sixteen words of `G` at once: every micro-operation that writes `G` writes all of it (R57). -/
def State.setGrid (s : State) (g : Grid) : State := { s with engine := { s.engine with g := g } }

/-- `uPC <- (ph, rnd)`: the engine's control transfer (R10, R170). -/
def State.setUPC (s : State) (ph : BitVec 3) (rnd : BitVec 4) : State :=
  { s with engine := { s.engine with ph := ph, rnd := rnd } }

/-- Write of `CONFIGURED` (R28). -/
def State.setConfigured (s : State) (b : Bool) : State := { s with engine := { s.engine with configured := b } }

/-- `respond(status, data)`: the three response registers, all in one step (spec/46_driver.md R165). -/
def State.respond (s : State) (st : Status) (data : BitVec 256) : State :=
  { s with engine := { s.engine with rspStatus := st.code, rspData := data, rspValid := true } }

/-- `raise E`: what an error does, `respond(code(E), 0)` and nothing else (spec/60_exceptions.md R193, R197). -/
def State.raise (s : State) (e : ErrorKind) : State := s.respond (.error e) 0

/-- The response take, which is also the return from an error: the host receives the pair and `RSP_VALID <- 0`
(spec/46_driver.md R166, spec/60_exceptions.md R198). `RSP_STATUS` and `RSP_DATA` are unspecified afterwards: free values
(log 6). -/
def State.takeResponse (s : State) : State :=
  { s with
    engine :=
      { s.engine with
        rspValid := false
        rspStatus := Config.freeStatus s.freeCount
        rspData := Config.freeData s.freeCount }
    taken := s.taken ++ [⟨s.engine.rspStatus, s.engine.rspData⟩]
    freeCount := s.freeCount + 1 }

/-- The reset step, "whatever state it is in" (spec/70_reset_and_hazards.md R220, R221). `G`, `RSP_STATUS` and `RSP_DATA` are
unspecified afterwards: free values (log 5). What the host has taken is the host's and stays (log 2). -/
def State.resetEdge (s : State) : State :=
  { s with
    engine :=
      { g := Vector.ofFn (Config.freeWord s.freeCount)
        rnd := 0
        ph := 0
        configured := false
        rspValid := false
        rspStatus := Config.freeStatus s.freeCount
        rspData := Config.freeData s.freeCount }
    freeCount := s.freeCount + 1 }

/-- The input ports at the coming edge: the first sample the host has left, or quiet (log 1). -/
def State.port (s : State) : PortSample := s.inputs.headD .quiet

/-- The edge is over: the next sample is the coming one. -/
def State.advance (s : State) : State := { s with inputs := s.inputs.tail }

/-- `exec`'s outcome with the edge closed: `State.advance` on a next state, a stop as it is. -/
def closeEdge : Host.Outcome State Fault Refusal → Host.Outcome State Fault Refusal
  | .next s => .next s.advance
  | .fault r => .fault r
  | .refused r => .refused r

end Sys2Proof.Machine
end

