-- ==== Sys2Proof/Machine/BitRotator.lean ====
section
/-! DEFINITION. BitRotator, the cyclic rotation primitive: combinational, no state, no opcode (spec/40_bitrotator.md). -/

namespace Sys2Proof.Machine

/-- `RotL(b, v, a)` as R100 writes it: floor modulus, shifts on unbounded naturals. -/
def rotL (b v : Nat) (a : Int) : Nat :=
  let k := (a % (b : Int)).toNat
  (v <<< k) % 2 ^ b + v >>> (b - k)

/-- `RotR(b, v, a) = RotL(b, v, b - a)` (R101). -/
def rotR (b v : Nat) (a : Int) : Nat := rotL b v ((b : Int) - a)

/-- `RotL(16, v, a)` on a word: the only width and sign of amount the engine uses (R103, R104). -/
def rotLeft (v : Word) (a : Nat) : Word := BitVec.ofNat 16 (rotL 16 v.toNat a)

/-- `RotR(16, v, a)` on a word (R103, R104). -/
def rotRight (v : Word) (a : Nat) : Word := BitVec.ofNat 16 (rotR 16 v.toNat a)

end Sys2Proof.Machine
end

