-- ==== Sys2Proof/Machine/AddConstant.lean ====
section
/-! DEFINITION. AddConstant: the round-constant generator and the XOR injection (spec/45_addconstant.md). -/

namespace Sys2Proof.Machine

/-- `RC(i, n)`: `C1` or `C2` rotated left by `i + n` (R150). -/
def roundConstant (P : Params) (i : BitVec 4) (n : Fin 16) : Word := rotLeft (constantOf P n) (constantAmount i n)

/-- AddConstant(i): `G[n] XOR RC(i, n)` for every `n` (R151). -/
def addConstant (P : Params) (i : BitVec 4) (g : Grid) : Grid := Vector.ofFn fun n => g[n] ^^^ roundConstant P i n

/-- The phase after ADDCONSTANT i: STORE after the last round, else SUBROWS of the next (R151, R170). -/
def phaseAfterRound (i : BitVec 4) : BitVec 3 := if lastRound i then 5 else 1

/-- ADDCONSTANT i (R151): `uPC <- (5, 0)` if `i = 15`, else `(1, i + 1)`; `RND` is `(i + 1) mod 16` either way
(spec/10_state.md R26). The round index is the operation's own field (log 13). -/
def execAddconstant (rnd : BitVec 4) (s : State) : Host.Outcome State Fault Refusal :=
  .next ((s.setGrid (addConstant Config.params rnd s.engine.g)).setUPC (phaseAfterRound rnd) (rnd + 1))

end Sys2Proof.Machine
end

