-- ==== Sys2Proof/Machine/MixSlices.lean ====
section
/-! DEFINITION. MixSlices, the 16×16 GF(2) diffusion layer (spec/43_mixslices.md). -/

namespace Sys2Proof.Machine

/-- `new[n]`: the XOR of all `oldx[k]` with `M[n][k] = 1`, accumulated from 0 (R130). -/
def mixWord (P : Params) (oldx : Grid) (n : Fin 16) : Word :=
  flatIndices.foldl (fun acc k => if P.m n k then acc ^^^ oldx[k] else acc) 0

/-- MixSlices: all sixteen outputs from the snapshot `oldx` (R130). -/
def mixSlices (P : Params) (oldx : Grid) : Grid := Vector.ofFn (mixWord P oldx)

/-- MIXSLICES (R130): `uPC <- (3, RND)`; `rnd` is not read (R73). -/
def execMixslices (_rnd : BitVec 4) (s : State) : Host.Outcome State Fault Refusal :=
  .next ((s.setGrid (mixSlices Config.params s.engine.g)).setUPC 3 s.engine.rnd)

end Sys2Proof.Machine
end

