-- ==== Sys2Proof/Machine/ShiftPlanes.lean ====
section
/-! DEFINITION. ShiftPlanes, the row rotation with parity-dependent amounts (spec/44_shiftplanes.md). -/

namespace Sys2Proof.Machine

/-- ShiftPlanes(i): every word rotated right by `ROT[i mod 2][row]` (R140). -/
def shiftPlanes (P : Params) (i : BitVec 4) (g : Grid) : Grid :=
  Vector.ofFn fun n => rotRight g[n] (shiftAmount P i n)

/-- SHIFTPLANES i (R140): `uPC <- (4, RND)`. The round index is the operation's own field, which equals `RND` whenever `step`
runs it (R73; log 13). -/
def execShiftplanes (rnd : BitVec 4) (s : State) : Host.Outcome State Fault Refusal :=
  .next ((s.setGrid (shiftPlanes Config.params rnd s.engine.g)).setUPC 4 s.engine.rnd)

end Sys2Proof.Machine
end

