-- ==== Sys2Proof/Machine/StateCodec.lean ====
section
/-! DEFINITION. StateCodec: the pure functions `Load` and `Store` and the micro-operations LOAD and STORE
(spec/41_statecodec.md). -/

namespace Sys2Proof.Machine

/-- `Load(x)[n] = x[16n+15:16n]` (R111). -/
def loadGrid (x : Nat) : Grid := Vector.ofFn (operandWord x)

/-- `Store(G)`: 32 bytes, each word low byte first (R113). -/
def storeBytes (g : Grid) : Vector Byte 32 := Vector.ofFn (outputByte g)

/-- The value of `{OB[31], ..., OB[1], OB[0]}`: the little-endian value of the byte sequence (spec/30_encoding.md R75, R112). -/
def littleEndian (bytes : List Byte) : Nat := bytes.foldr (fun b acc => b.toNat + 256 * acc) 0

/-- The 32 bytes laid out on `RSP_DATA`, `OB[m]` at bits [8m+7:8m] (R112). -/
def packBytes (bytes : Vector Byte 32) : BitVec 256 := BitVec.ofNat 256 (littleEndian bytes.toList)

/-- What LOAD writes, given its operand: `G <- Load(x)`, `uPC <- (1, 0)` (R110). PERMUTE performs it too (R162). -/
def State.loadOperand (s : State) (x : Nat) : State := (s.setGrid (loadGrid x)).setUPC 1 0

/-- LOAD (R110). Its operand is `cmd_data` at the coming edge (R74, R77; log 14); `rnd` is ignored (R73). -/
def execLoad (_rnd : BitVec 4) (s : State) : Host.Outcome State Fault Refusal :=
  .next (s.loadOperand s.port.cmdData)

/-- STORE (R112): `respond(OK, Store(G))`, `uPC <- (0, RND)`; `rnd` is ignored (R73). -/
def execStore (_rnd : BitVec 4) (s : State) : Host.Outcome State Fault Refusal :=
  .next ((s.respond .ok (packBytes (storeBytes s.engine.g))).setUPC 0 s.engine.rnd)

end Sys2Proof.Machine
end

