-- ==== Sys2Proof/Machine/SubRows.lean ====
section
/-! DEFINITION. SubRows, the bitsliced S-box layer (spec/42_subrows.md). -/

namespace Sys2Proof.Machine

/-- The four words of row `i` (spec/10_state.md R22). -/
def gridRow (g : Grid) (i : Fin 4) : Row := ⟨g[flat i 0], g[flat i 1], g[flat i 2], g[flat i 3]⟩

/-- Column `j` of a row, in the order `p, q, r, s` (R22). -/
def rowWord (w : Row) (j : Fin 4) : Word :=
  match j with
  | 0 => w.p
  | 1 => w.q
  | 2 => w.r
  | 3 => w.s

/-- The four lines of R120 on one row: unprimed names are the pre-update values. -/
def subRow (w : Row) : Row :=
  let p' := w.r ^^^ (w.p &&& w.q)
  let q' := w.s ^^^ (w.q &&& w.r)
  let r' := w.p ^^^ (p' &&& q')
  let s' := w.q ^^^ (q' &&& r')
  ⟨p', q', r', s'⟩

/-- SubRows on the whole grid: the four rows, independent of each other (R120). -/
def subRows (g : Grid) : Grid := Vector.ofFn fun n => rowWord (subRow (gridRow g (rowOf n))) (colOf n)

/-- SUBROWS (R120): `uPC <- (2, RND)`; `rnd` is not read (R73). -/
def execSubrows (_rnd : BitVec 4) (s : State) : Host.Outcome State Fault Refusal :=
  .next ((s.setGrid (subRows s.engine.g)).setUPC 2 s.engine.rnd)

end Sys2Proof.Machine
end

