-- ==== Sys2Proof/Machine/Driver.lean ====
section
/-! DEFINITION. PermutationDriver: the two host commands, what happens at an edge, the permutation as a pure function, and the
placing of one operation where the next edge runs it (spec/46_driver.md). -/

namespace Sys2Proof.Machine

/-- What an accepted CONFIGURE does, the supported value being `cfgOk` (R161). -/
def State.configure (s : State) (cfgOk cfg : Nat) : State :=
  if cfg = cfgOk then (s.setConfigured true).respond .ok 0
  else (s.setConfigured false).raise .unsupportedConfiguration

/-- CONFIGURE cfg (R161). Where `cmd_ready = 0` the command is not accepted and changes nothing (R160; log 12). -/
def execConfigure (cfg : Nat) (s : State) : Host.Outcome State Fault Refusal :=
  .next (if s.engine.cmdReady then s.configure Config.params.cfgOk.toNat cfg else s)

/-- What an accepted PERMUTE does: the configuration is checked first, the range second, then LOAD (R162, R196). -/
def State.permute (s : State) (x : Nat) : State :=
  if !s.engine.configured then s.raise .unsupportedConfiguration
  else if !inRange x then s.raise .inputOutOfRange
  else s.loadOperand x

/-- PERMUTE x (R162). Where `cmd_ready = 0` the command is not accepted and changes nothing (R160; log 12). -/
def execPermute (x : Nat) (s : State) : Host.Outcome State Fault Refusal :=
  .next (if s.engine.cmdReady then s.permute x else s)

/-- What the coming edge does. -/
inductive Edge where
  /-- `rst = 1` (R220). -/
  | reset
  /-- `PH` is reserved: no defined step (R29, R78). -/
  | reserved
  /-- The host takes the response (R166). -/
  | take
  /-- A command is accepted (R160), or `PH` names a micro-operation (R74). -/
  | run (i : Instr)
  /-- No engine step: the engine waits (R167). -/
  | wait
deriving DecidableEq, Repr

/-- The decoder of R80 with reset and the response take around it. Reset wins over everything (R220); a reserved phase is a
fault whatever else happens (R29; log 11); a take and a micro-operation cannot coincide (R196; log 10). -/
def selectEdge (e : Engine) (p : PortSample) : Edge :=
  if p.rst then .reset
  else if e.phaseReserved then .reserved
  else if e.rspValid && p.rspReady then .take
  else if e.ph = 0 then
    (if e.cmdReady && p.cmdValid then .run (decodeCmd p.cmdOp p.cmdData) else .wait)
  else
    match decodeUop e.ph e.rnd with
    | .ok i => .run i
    | .error _ => .reserved

/-- The edge this state comes to. -/
def State.edge (s : State) : Edge := selectEdge s.engine s.port

/-- The round indices in the order of application (R171, R180). -/
def roundIndices : List (BitVec 4) := [0, 1, 2, 3, 4, 5, 6, 7, 8, 9, 10, 11, 12, 13, 14, 15]

/-- `Round(i, S)` (R180). -/
def roundGrid (P : Params) (i : BitVec 4) (g : Grid) : Grid :=
  addConstant P i (shiftPlanes P i (mixSlices P (subRows g)))

/-- `Rounds(S)`: the sixteen rounds, `i = 0` first (R180). -/
def roundsGrid (P : Params) (g : Grid) : Grid := roundIndices.foldl (fun acc i => roundGrid P i acc) g

/-- `Permute(x) = Store(Rounds(Load(x)))` (R180). -/
def permuteBytes (P : Params) (x : Nat) : Vector Byte 32 := storeBytes (roundsGrid P (loadGrid x))

/-- A port sample that lets the coming edge run a micro-operation: no reset, no take. -/
def PortSample.forUop (p : PortSample) : PortSample := { p with rst := false, rspReady := false }

/-- A port sample that presents a command. -/
def PortSample.forCmd (p : PortSample) (op : BitVec 1) (data : Nat) : PortSample :=
  { p.forUop with cmdValid := true, cmdOp := op, cmdData := data }

/-- The state with the coming edge's sample replaced. -/
def State.setPort (s : State) (p : PortSample) : State := { s with inputs := p :: s.inputs.tail }

/-- The state in which the coming edge accepts a command: idle, no response waiting (R33, R160). -/
def State.makeReady (s : State) : State :=
  { s with engine := { s.engine with ph := 0, rspValid := false } }

/-- A CMD word of the table (written for `DIN_W = 256`) placed on the ports of an engine that is ready for it (R72; log 17). -/
def State.placeCmd (s : State) (w : Nat) : State :=
  s.makeReady.setPort (s.port.forCmd (BitVec.ofNat 1 (w >>> 256)) (w % 2 ^ 256))

/-- A UOP word placed in `(PH, RND)` (R73; log 17). LOAD runs only in the step that accepts a valid PERMUTE (R74), so for ph 0
the engine is made ready and configured and such a command presented, with the operand the port holds. -/
def State.placeUop (s : State) (w : Nat) : State :=
  let ph := BitVec.ofNat 3 (w >>> 4)
  let rnd := BitVec.ofNat 4 w
  if ph = 0 then
    ((s.makeReady.setConfigured true).setUPC 0 rnd).setPort (s.port.forCmd 1 (s.port.cmdData % 2 ^ 256))
  else (s.setUPC ph rnd).setPort s.port.forUop

/-- A table word placed so that the very next edge runs it; a word of neither length changes nothing (log 17). -/
def State.placeWord (s : State) (nbits w : Nat) : State :=
  if nbits = 7 ∨ nbits = wholeBytes 7 then s.placeUop w
  else if nbits = 257 ∨ nbits = wholeBytes 257 then s.placeCmd w
  else s

end Sys2Proof.Machine
end

