-- ==== Sys2Proof/Machine/Dispatch.lean ====
section
/-! DEFINITION. The meaning of each operation: one arm per constructor of `Instr`. -/

namespace Sys2Proof.Machine

def exec (i : Instr) (s : State) : Host.Outcome State Fault Refusal :=
  match i with
  | .configure cfg => Sys2Proof.Machine.execConfigure cfg s
  | .permute x => Sys2Proof.Machine.execPermute x s
  | .load rnd => Sys2Proof.Machine.execLoad rnd s
  | .subrows rnd => Sys2Proof.Machine.execSubrows rnd s
  | .mixslices rnd => Sys2Proof.Machine.execMixslices rnd s
  | .shiftplanes rnd => Sys2Proof.Machine.execShiftplanes rnd s
  | .addconstant rnd => Sys2Proof.Machine.execAddconstant rnd s
  | .store rnd => Sys2Proof.Machine.execStore rnd s

end Sys2Proof.Machine
end

