-- ==== Sys2Proof/Machine/Step.lean ====
section
/-! DEFINITION. One step of the machine, and the placing of one operation where the next step runs it. -/

namespace Sys2Proof.Machine

/-- One edge (spec/30_encoding.md R71, R80): a reset, a taken response, an accepted command or a micro-operation, or an edge at
which the engine waits. Every edge uses up one sample of the input ports. -/
def step (s : State) : Host.Outcome State Fault Refusal :=
  match s.edge with
  | .reset => .next s.resetEdge.advance
  | .reserved => .fault (.reservedPhase s.engine.ph)
  | .take => .next s.takeResponse.advance
  | .run i => closeEdge (exec i s)
  | .wait => .next s.advance

/-- `s` with the operation of a word of spec/opcode_table.json placed so that `step` runs exactly it (log 17). -/
def State.withFetchWord (s : State) (nbits w : Nat) : State := s.placeWord nbits w

end Sys2Proof.Machine
end

