-- ==== Sys2Proof/Safety.lean ====
section
/-! DEFINITION. The terms in which claims about the machine are made: several steps, the invariants of the engine, what counts
as the same engine for the host, and what counts as the same control. -/

namespace Sys2Proof.Machine

/-- `k` steps, stopping at the first stop. -/
def runSteps : Nat → State → Host.Outcome State Fault Refusal
  | 0, s => .next s
  | k + 1, s =>
    match step s with
    | .next t => runSteps k t
    | .fault f => .fault f
    | .refused r => .refused r

/-- The machine runs `k` steps without a stop. -/
def SafeFor (k : Nat) (s : State) : Prop := ∃ t, runSteps k s = .next t

/-- No reset falls on the next `k` edges. -/
abbrev State.noResetFor (s : State) (k : Nat) : Prop := ∀ p ∈ s.inputs.take k, p.rst = false

/-- A command is accepted at the coming edge (R71, R160). -/
abbrev State.accepts (s : State) : Prop :=
  s.port.rst = false ∧ s.port.cmdValid = true ∧ s.engine.ph = 0 ∧ s.engine.rspValid = false

/-- A PERMUTE that passes both checks is accepted at the coming edge: a call begins with LOAD (R110, R162). -/
abbrev State.startsCall (s : State) : Prop :=
  s.accepts ∧ s.port.cmdOp = 1 ∧ s.engine.configured = true ∧ s.port.cmdData < 2 ^ 256

/-- A command is accepted at the coming edge that is answered in the accepting step: a CONFIGURE, or a PERMUTE that fails a check
(R161, R162, R165). -/
abbrev State.answersAtOnce (s : State) : Prop :=
  s.accepts ∧ (s.port.cmdOp = 0 ∨ s.engine.configured = false ∨ 2 ^ 256 ≤ s.port.cmdData)

/-- A response is taken at the coming edge (R71, R166). -/
abbrev State.takes (s : State) : Prop :=
  s.port.rst = false ∧ s.port.rspReady = true ∧ s.engine.rspValid = true

/-- A response the engine may give: code 3 never, and all-zero data with every error (R75, R76, R190). -/
abbrev Response.legal (r : Response) : Prop := r.status ≠ 3 ∧ (r.status ≠ 0 → r.data = 0)

/-- The engine's invariant: `PH` in 0 to 5 (R29); no response waits during a call (R167), which only a configured engine makes
(R162); STORE is reached with `RND = 0` (R170); a waiting response is a legal one. -/
abbrev Engine.Inv (e : Engine) : Prop :=
  e.ph.toNat ≤ 5 ∧ (e.ph ≠ 0 → e.rspValid = false ∧ e.configured = true) ∧ (e.ph = 5 → e.rnd = 0) ∧
    (e.rspValid = true → (Response.mk e.rspStatus e.rspData).legal)

/-- The machine's invariant: the engine's, and every response the host has taken was a legal one. -/
abbrev State.Inv (s : State) : Prop := s.engine.Inv ∧ ∀ r ∈ s.taken, r.legal

/-- The grid after the rounds before round `i` (R180). -/
def roundsBefore (P : Params) (i : BitVec 4) (g : Grid) : Grid :=
  (roundIndices.take i.toNat).foldl (fun acc j => roundGrid P j acc) g

/-- What `G` holds when the micro-operation `(ph, i)` of the call `PERMUTE x` is about to execute (R171, R180). -/
def gridAt (P : Params) (ph : BitVec 3) (i : BitVec 4) (x : Nat) : Grid :=
  let g := roundsBefore P i (loadGrid x)
  match ph.toNat with
  | 1 => g
  | 2 => subRows g
  | 3 => mixSlices P (subRows g)
  | 4 => shiftPlanes P i (mixSlices P (subRows g))
  | _ => roundsGrid P (loadGrid x)

/-- An `OK` response carries zero data (it answers a CONFIGURE) or the permutation of some operand in range. -/
def Response.honest (P : Params) (r : Response) : Prop :=
  r.status = 0 → r.data = 0 ∨ ∃ x < 2 ^ 256, r.data = packBytes (permuteBytes P x)

/-- The invariant behind R181: a call in progress holds exactly what R180 says it should for some operand in range, and every
`OK` response that waits or was taken is an honest one. -/
def State.CallInv (s : State) : Prop :=
  s.Inv ∧ (s.engine.ph ≠ 0 → ∃ x < 2 ^ 256, s.engine.g = gridAt Config.params s.engine.ph s.engine.rnd x) ∧
    (s.engine.rspValid = true → (Response.mk s.engine.rspStatus s.engine.rspData).honest Config.params) ∧
    ∀ r ∈ s.taken, r.honest Config.params

/-- Two states that differ only in what the spec calls unspecified: `G` and `RND` while `PH = 0` (R24, R30), `RSP_STATUS` and
`RSP_DATA` while `RSP_VALID = 0` (R32, R34), and the model's own counter of free values. -/
def State.SameForHost (s t : State) : Prop :=
  s.engine.ph = t.engine.ph ∧ s.engine.configured = t.engine.configured ∧ s.engine.rspValid = t.engine.rspValid ∧
    (s.engine.ph ≠ 0 → s.engine.g = t.engine.g ∧ s.engine.rnd = t.engine.rnd) ∧
    (s.engine.rspValid = true → s.engine.rspStatus = t.engine.rspStatus ∧ s.engine.rspData = t.engine.rspData) ∧
    s.inputs = t.inputs ∧ s.taken = t.taken

/-- Two port samples that ask the same of the sequencer: they may differ in the operand of a PERMUTE, so long as both operands
are in range or both are not (R232). -/
def PortSample.SameControl (p q : PortSample) : Prop :=
  p.rst = q.rst ∧ p.cmdValid = q.cmdValid ∧ p.cmdOp = q.cmdOp ∧ p.rspReady = q.rspReady ∧
    (p.cmdOp = 0 → p.cmdData = q.cmdData) ∧ inRange p.cmdData = inRange q.cmdData

/-- Two states with the same sequencer, configuration and response-valid bit, and inputs that ask the same of them (R27, R232);
`G`, the response and the operands are free to differ. -/
def State.SameControl (s t : State) : Prop :=
  s.engine.ph = t.engine.ph ∧ s.engine.rnd = t.engine.rnd ∧ s.engine.configured = t.engine.configured ∧
    s.engine.rspValid = t.engine.rspValid ∧ List.Forall₂ PortSample.SameControl s.inputs t.inputs

end Sys2Proof.Machine
end

