-- ==== Sys2Proof/Certificates/Slice0/Obligations.lean ====
section
/-! DEFINITION. The statements for the provers, in the order of OBLIGATIONS.json: encodings, the edge, the two commands, the six
micro-operations, the laws of the layers, the call as a whole, the invariants, and the whole-machine rules. -/

open Sys2Proof Sys2Proof.Machine

/-! ## Encodings -/

/-- R72 to R74: on a bus of any legal width, decoding the word of a well-formed operation gives it back, with every operand at
every value. The second conjunct, the length rounded up to whole bytes, is the model's own choice (log 18): R79 gives one length. -/
def Obligations.EncodeDecodeRoundTrip : Prop :=
  ∀ (dinW : Nat) (i : Instr), 256 ≤ dinW → i.wellFormed dinW = true →
    decodeWord dinW (encodedBits dinW i) (encode dinW i) = .ok i ∧
      decodeWord dinW (wholeBytes (encodedBits dinW i)) (encode dinW i) = .ok i

/-- R72 to R74, the other direction: a word that decodes is the word of the operation it decodes to, in that operation's format,
and the operation is well formed; so each operation has one word. That a length in whole bytes decodes too, and that a bit above
the format is refused, is the model's own choice (log 18). -/
def Obligations.DecodedWordIsItsEncoding : Prop :=
  ∀ (dinW nbits w : Nat) (i : Instr), 256 ≤ dinW → decodeWord dinW nbits w = .ok i →
    i.wellFormed dinW = true ∧ encode dinW i = w ∧
      (nbits = encodedBits dinW i ∨ nbits = wholeBytes (encodedBits dinW i))

/-- R74, R78: of the UOP words exactly those with ph 6 or 7 are rejected; R72, R78: no CMD word of `1 + DIN_W` bits is. -/
def Obligations.OnlyReservedPhasesAreRejected : Prop :=
  (∀ w < 2 ^ 7, decodeWord 256 7 w = .error .reservedPhase ↔ w / 2 ^ 4 = 6 ∨ w / 2 ^ 4 = 7) ∧
    (∀ w < 2 ^ 7, ¬(w / 2 ^ 4 = 6 ∨ w / 2 ^ 4 = 7) → ∃ i, decodeWord 256 7 w = .ok i) ∧
    ∀ (dinW w : Nat), 256 ≤ dinW → w < 2 ^ (dinW + 1) → ∃ i, decodeWord dinW (dinW + 1) w = .ok i

/-- R72 to R74: eight words written out from the spec's formats, one of each row of the opcode table, and the two reserved phases.
That they are read at 8 and 264 bits, the formats' lengths in whole bytes, is the model's own choice (log 18). -/
def Obligations.TableWordsDecode : Prop :=
  decodeTableWord 264 0x100 = some (.configure 256) ∧ decodeTableWord 264 (2 ^ 256 + 5) = some (.permute 5) ∧
    decodeTableWord 8 0b0000000 = some (.load 0) ∧ decodeTableWord 8 0b0010011 = some (.subrows 3) ∧
    decodeTableWord 8 0b0100001 = some (.mixslices 1) ∧ decodeTableWord 8 0b0111111 = some (.shiftplanes 15) ∧
    decodeTableWord 8 0b1001111 = some (.addconstant 15) ∧ decodeTableWord 8 0b1010000 = some (.store 0) ∧
    decodeTableWord 8 0b1100000 = none ∧ decodeTableWord 8 0b1110000 = none

/-! ## The edge -/

/-- R80: a step runs the decoded operation. Where a command is accepted, `step` is `exec` of the operation the ports encode;
where `PH` is not 0, no reset and no take falls on the edge and `(PH, RND)` encodes an operation, `step` is `exec` of that one.
Around `exec` it only moves to the next sample of the input ports (log 1). -/
def Obligations.StepRunsDecodedOperation : Prop :=
  ∀ s : State,
    (s.accepts → ∀ t, exec (decodeCmd s.port.cmdOp s.port.cmdData) s = .next t →
      step s = .next { t with inputs := t.inputs.tail }) ∧
    (∀ i, s.port.rst = false → s.engine.ph ≠ 0 → ¬s.takes → decodeUop s.engine.ph s.engine.rnd = .ok i →
      ∀ t, exec i s = .next t → step s = .next { t with inputs := t.inputs.tail })

/-- R80, the decoder complete, in every state with no response waiting during a call (R167: no other is reachable). R80 leaves `PH`
6 and 7 undefined; the fault there is R29's and R78's, before everything but a reset (log 11). That an edge moves to the next input
sample is log 1. -/
def Obligations.DecoderOfTheEdgeIsComplete : Prop :=
  ∀ s : State, s.port.rst = false → (s.engine.ph ≠ 0 → s.engine.rspValid = false) →
    (s.accepts → s.port.cmdOp = 0 → step s = closeEdge (exec (.configure s.port.cmdData) s)) ∧
    (s.accepts → s.port.cmdOp = 1 → step s = closeEdge (exec (.permute s.port.cmdData) s)) ∧
    (s.engine.ph = 1 → step s = closeEdge (exec (.subrows s.engine.rnd) s)) ∧
    (s.engine.ph = 2 → step s = closeEdge (exec (.mixslices s.engine.rnd) s)) ∧
    (s.engine.ph = 3 → step s = closeEdge (exec (.shiftplanes s.engine.rnd) s)) ∧
    (s.engine.ph = 4 → step s = closeEdge (exec (.addconstant s.engine.rnd) s)) ∧
    (s.engine.ph = 5 → step s = closeEdge (exec (.store s.engine.rnd) s)) ∧
    (s.engine.ph = 0 → ¬s.accepts → ¬s.takes → step s = .next { s with inputs := s.inputs.tail }) ∧
    (s.engine.ph = 6 ∨ s.engine.ph = 7 → step s = .fault (.reservedPhase s.engine.ph))

/-- R29, R78: a step faults exactly where `PH` is reserved and no reset falls on the edge, and it never refuses. That a reset
still works there is log 11 (DEDUCED from R220). -/
def Obligations.StepFaultsExactlyOnReservedPhases : Prop :=
  ∀ s : State,
    (∀ f, step s = .fault f ↔
      s.port.rst = false ∧ (s.engine.ph = 6 ∨ s.engine.ph = 7) ∧ f = .reservedPhase s.engine.ph) ∧
    ∀ r, step s ≠ .refused r

/-- R220, R221: at an edge with `rst = 1` the engine takes the reset step whatever state it is in; no command is accepted, no
response is taken. Nothing is said of the values R221 leaves unspecified. That the reset wins where `PH` is 6 or 7, against R29, is
log 11; that the edge uses up one input sample is log 1, and `taken` is log 2. -/
def Obligations.ResetEdgeResetsEveryState : Prop :=
  ∀ s : State, s.port.rst = true →
    ∃ t, step s = .next t ∧ t.engine.ph = 0 ∧ t.engine.rnd = 0 ∧ t.engine.configured = false ∧
      t.engine.rspValid = false ∧ t.engine.cmdReady = true ∧ t.taken = s.taken ∧ t.inputs = s.inputs.tail

/-- R221: the specified values in the state after reset. -/
def Obligations.ResetStateHasTheSpecifiedValues : Prop :=
  State.reset.engine.ph = 0 ∧ State.reset.engine.rnd = 0 ∧ State.reset.engine.configured = false ∧
    State.reset.engine.rspValid = false ∧ State.reset.engine.cmdReady = true ∧ State.reset.engine.outputs = (true, none)

/-- R166: the host receives the waiting pair and `RSP_VALID <- 0`, nothing else of the engine's specified state changes; while
the host does not take it, the response is held with the rest of the engine. R198: after the take of an idle engine a command
can be accepted again. A response waits at `PH = 0` only (R167; StepKeepsTheInvariant). `taken` is where the model shows what the
host receives (log 2), and that the edge uses up one input sample is log 1. -/
def Obligations.ResponseTakeReturnsThePair : Prop :=
  ∀ s : State, s.port.rst = false → s.engine.ph = 0 → s.engine.rspValid = true →
    (s.port.rspReady = true →
      ∃ t, step s = .next t ∧ t.taken = s.taken ++ [⟨s.engine.rspStatus, s.engine.rspData⟩] ∧
        t.engine.rspValid = false ∧ t.engine.cmdReady = true ∧ t.engine.g = s.engine.g ∧ t.engine.rnd = s.engine.rnd ∧
        t.engine.ph = s.engine.ph ∧ t.engine.configured = s.engine.configured ∧ t.inputs = s.inputs.tail) ∧
    (s.port.rspReady = false → step s = .next { s with inputs := s.inputs.tail })

/-- R160: outside `PH = 0 and RSP_VALID = 0` a presented command changes nothing. As an operation it leaves the state as it is;
at an edge, what the command ports carry makes no difference to the step. The answer of `exec` alone is the model's form (log 12),
since no step runs an unaccepted command. -/
def Obligations.UnacceptedCommandChangesNothing : Prop :=
  ∀ s : State, s.engine.cmdReady = false →
    (∀ data, exec (.configure data) s = .next s ∧ exec (.permute data) s = .next s) ∧
    ∀ p q : PortSample, p.rst = q.rst → p.rspReady = q.rspReady → step (s.setPort p) = step (s.setPort q)

/-- The model's own placing of one operation (log 17): every word of the opcode table's lengths that decodes is run by the very
next step. -/
def Obligations.PlacedWordIsRunNext : Prop :=
  ∀ (s : State) (nbits w : Nat) (i : Instr), decodeTableWord nbits w = some i →
    step (s.withFetchWord nbits w) = closeEdge (exec i (s.withFetchWord nbits w))

/-! ## The two commands -/

/-- R161: an accepted CONFIGURE sets `CONFIGURED` and responds `(OK, 0)` for the supported value, clears it and responds
`(UnsupportedConfiguration, 0)` for every other, in one step; nothing else changes. -/
def Obligations.ConfigureAnswersAtOnce : Prop :=
  ∀ (s : State) (cfg : Nat), s.engine.ph = 0 → s.engine.rspValid = false →
    (cfg = Config.params.cfgOk.toNat →
      exec (.configure cfg) s = .next
        { s with
          engine := { s.engine with configured := true, rspValid := true, rspStatus := 0, rspData := 0 } }) ∧
    (cfg ≠ Config.params.cfgOk.toNat →
      exec (.configure cfg) s = .next
        { s with
          engine := { s.engine with configured := false, rspValid := true, rspStatus := 1, rspData := 0 } })

/-- R162, R196: an accepted PERMUTE on an unconfigured engine answers `(1, 0)` whatever the operand; on a configured engine an
operand of more than 256 bits is answered `(2, 0)`; else it performs LOAD: word `n` of `G` is `x[16n+15:16n]`, `uPC` is
`(1, 0)`, there is no response yet. Nothing else changes. -/
def Obligations.PermuteChecksThenLoads : Prop :=
  ∀ (s : State) (x : Nat), s.engine.ph = 0 → s.engine.rspValid = false →
    (s.engine.configured = false →
      exec (.permute x) s = .next
        { s with engine := { s.engine with rspValid := true, rspStatus := 1, rspData := 0 } }) ∧
    (s.engine.configured = true → 2 ^ 256 ≤ x →
      exec (.permute x) s = .next
        { s with engine := { s.engine with rspValid := true, rspStatus := 2, rspData := 0 } }) ∧
    (s.engine.configured = true → x < 2 ^ 256 →
      ∃ g : Grid, (∀ n : Fin 16, (g[n]).toNat = x / 2 ^ (16 * n.val) % 2 ^ 16) ∧
        exec (.permute x) s = .next { s with engine := { s.engine with g := g, ph := 1, rnd := 0 } })

/-- R74, R162: the step that accepts a PERMUTE passing both checks performs LOAD. That `exec` of LOAD reads the coming sample's
`cmd_data` is log 14. -/
def Obligations.AcceptedPermutePerformsLoad : Prop :=
  ∀ (s : State) (rnd : BitVec 4), s.accepts → s.port.cmdOp = 1 → s.engine.configured = true → s.port.cmdData < 2 ^ 256 →
    step s = closeEdge (exec (.load rnd) s)

/-! ## The six micro-operations: what each writes, and that it writes nothing else -/

/-- R110: bit `16n + j` of the operand becomes bit `j` of `G[n]`; `uPC <- (1, 0)`; nothing else changes. That `exec` of LOAD reads its operand
from the coming sample, in every state and whatever its range, is log 14, and that it does not check `(PH, RND)` log 13. -/
def Obligations.LoadSplitsTheOperand : Prop :=
  ∀ (s : State) (rnd : BitVec 4),
    ∃ g : Grid, (∀ (n : Fin 16) (j : Fin 16), (g[n]).getLsbD j = s.port.cmdData.testBit (16 * n.val + j.val)) ∧
      exec (.load rnd) s = .next { s with engine := { s.engine with g := g, ph := 1, rnd := 0 } }

/-- R112: 32 bytes, each word low byte first, byte `m` at `RSP_DATA[8m+7:8m]`, so that `RSP_DATA[16n+15:16n]` is `G[n]`; the
response is `OK`, `uPC <- (0, RND)`; `G` and everything else stay. That it holds in every state and for every `rnd`, `PH` unchecked,
is log 13. -/
def Obligations.StoreEmitsTheGrid : Prop :=
  ∀ (s : State) (rnd : BitVec 4),
    ∃ d : BitVec 256,
      (∀ n : Fin 16, d.extractLsb' (8 * (2 * n.val)) 8 = (s.word n).extractLsb' 0 8 ∧
        d.extractLsb' (8 * (2 * n.val + 1)) 8 = (s.word n).extractLsb' 8 8 ∧
        d.extractLsb' (16 * n.val) 16 = s.word n) ∧
      exec (.store rnd) s = .next
        { s with engine := { s.engine with rspValid := true, rspStatus := 0, rspData := d, ph := 0 } }

/-- R120: the four lines on every row, unprimed names pre-update; `uPC <- (2, RND)`; nothing else changes. That it holds in every
state and for every `rnd`, `PH` unchecked, is log 13. -/
def Obligations.SubrowsAppliesTheFourLines : Prop :=
  ∀ (s : State) (rnd : BitVec 4),
    ∃ g : Grid,
      (∀ i : Fin 4,
        g[flat i 0] = s.word (flat i 2) ^^^ (s.word (flat i 0) &&& s.word (flat i 1)) ∧
        g[flat i 1] = s.word (flat i 3) ^^^ (s.word (flat i 1) &&& s.word (flat i 2)) ∧
        g[flat i 2] = s.word (flat i 0) ^^^ (g[flat i 0] &&& g[flat i 1]) ∧
        g[flat i 3] = s.word (flat i 1) ^^^ (g[flat i 1] &&& g[flat i 2])) ∧
      exec (.subrows rnd) s = .next { s with engine := { s.engine with g := g, ph := 2 } }

/-- R130, R132: bit `z` of output word `n` is the parity of the set of `k` with `M[n][k] = 1` and bit `z` of the OLD `G[k]` set;
`uPC <- (3, RND)`; nothing else changes. That it holds in every state and for every `rnd`, `PH` unchecked, is log 13. -/
def Obligations.MixslicesMultipliesByTheMatrix : Prop :=
  ∀ (s : State) (rnd : BitVec 4),
    ∃ g : Grid,
      (∀ n z : Fin 16, (g[n]).getLsbD z =
        decide (Odd (Finset.univ.filter fun k : Fin 16 => Config.params.m n k = true ∧ (s.word k).getLsbD z = true).card)) ∧
      exec (.mixslices rnd) s = .next { s with engine := { s.engine with g := g, ph := 3 } }

/-- R140: bit `j` of the word in row `r`, column `c` moves to bit `(j - ROT[i mod 2][r]) mod 16`; words do not move between
positions; `uPC <- (4, RND)`; nothing else changes. R140 says so of `i = RND`; that `exec` takes the operation's own field for `i`,
in every state, `PH` and `RND` unchecked, is log 13. -/
def Obligations.ShiftplanesRotatesEveryWordRight : Prop :=
  ∀ (s : State) (i : BitVec 4),
    ∃ g : Grid,
      (∀ (r c : Fin 4) (j : Fin 16),
        (g[flat r c]).getLsbD
          ((j.val + (16 - (Config.params.rot (if i.toNat % 2 = 0 then 0 else 1) r).toNat)) % 16) =
          (s.word (flat r c)).getLsbD j) ∧
      exec (.shiftplanes i) s = .next { s with engine := { s.engine with g := g, ph := 4 } }

/-- R151: `grid[r][c] ^= RotL(16, C1, i + 4r + c)` for `c` in {0, 2}, `grid[r][c+1] ^= RotL(16, C2, i + 4r + c + 1)`, the
rotations said bit by bit; `uPC <- (5, 0)` if `i = 15`, else `(1, i + 1)`; nothing else changes. R151 says so of `i = RND`; that
`exec` takes the operation's own field for `i`, in the constants and in the next `RND`, in every state, `PH` and `RND` unchecked, is
log 13. -/
def Obligations.AddconstantInjectsTheRoundConstants : Prop :=
  ∀ (s : State) (i : BitVec 4),
    ∃ g : Grid,
      (∀ (r c : Fin 4) (j : Fin 16),
        (g[flat r c] ^^^ s.word (flat r c)).getLsbD ((j.val + (i.toNat + 4 * r.val + c.val)) % 16) =
          (if c = 0 ∨ c = 2 then Config.params.c1 else Config.params.c2).getLsbD j) ∧
      (i = 15 → exec (.addconstant i) s = .next { s with engine := { s.engine with g := g, ph := 5, rnd := 0 } }) ∧
      (i ≠ 15 →
        exec (.addconstant i) s = .next
          { s with engine := { s.engine with g := g, ph := 1, rnd := BitVec.ofNat 4 (i.toNat + 1) } })

/-! ## The laws of the components -/

/-- R100: for every width and every amount, of either sign, bit `j` of the input is bit `(j + k) mod b` of the result, with
`k = a mod b` the floor modulus, and the result is in [0, 2^b). -/
def Obligations.RotateLeftMovesEveryBit : Prop :=
  ∀ (b v : Nat) (a : Int), 0 < b → v < 2 ^ b →
    rotL b v a < 2 ^ b ∧ ∀ j < b, (rotL b v a).testBit (((j : Int) + a) % b).toNat = v.testBit j

/-- R101: the right rotation, for every width and amount: bit `j` moves to bit `(j - k) mod b`. -/
def Obligations.RotateRightMovesEveryBit : Prop :=
  ∀ (b v : Nat) (a : Int), 0 < b → v < 2 ^ b →
    rotR b v a = rotL b v (b - a) ∧ rotR b v a < 2 ^ b ∧
      ∀ j < b, (rotR b v a).testBit (((j : Int) - a) % b).toNat = v.testBit j

/-- R102: the required properties of the rotations and the further consequences listed with them. -/
def Obligations.RotationLaws : Prop :=
  ∀ (b u v : Nat) (a a₁ a₂ : Int), 0 < b → u < 2 ^ b → v < 2 ^ b →
    rotL b v 0 = v ∧ rotL b v b = v ∧ rotR b (rotL b v a) a = v ∧ rotL b (rotR b v a) a = v ∧
      rotL b (rotL b v a₁) a₂ = rotL b v (a₁ + a₂) ∧
      rotL b (u ^^^ v) a = rotL b u a ^^^ rotL b v a ∧ rotL b (u &&& v) a = rotL b u a &&& rotL b v a ∧
      (rotL b u a = rotL b v a → u = v) ∧ (∃ w < 2 ^ b, rotL b w a = v) ∧ rotL b v a < 2 ^ b

/-- R114, R54: storing what was loaded gives the canonical 32-byte little-endian encoding: byte `m` is `x[8m+7:8m]`, and on
`RSP_DATA` it is `x` itself. -/
def Obligations.StoreOfLoadIsLittleEndian : Prop :=
  ∀ x < 2 ^ 256,
    (∀ m : Fin 32, ((storeBytes (loadGrid x))[m]).toNat = x / 2 ^ (8 * m.val) % 2 ^ 8) ∧
      (packBytes (storeBytes (loadGrid x))).toNat = x

/-- R111: Load takes `x[16n+15:16n]` to word `n` and is a bijection from [0, 2^256), with inverse `sum over n of
G[n] * 2^(16n)`. R113: Store takes the low byte of word `n` to byte `2n`, the high byte to byte `2n + 1`, and is a bijection. -/
def Obligations.LoadAndStoreAreBijections : Prop :=
  (∀ x < 2 ^ 256, ∀ n : Fin 16, ((loadGrid x)[n]).toNat = x / 2 ^ (16 * n.val) % 2 ^ 16) ∧
    Function.Bijective (fun x : BitVec 256 => loadGrid x.toNat) ∧
    (∀ x < 2 ^ 256, x = ∑ n : Fin 16, ((loadGrid x)[n]).toNat * 2 ^ (16 * n.val)) ∧
    (∀ (g : Grid) (n : Fin 16), ((storeBytes g)[2 * n.val]).toNat = (g[n]).toNat % 256 ∧
      ((storeBytes g)[2 * n.val + 1]).toNat = (g[n]).toNat / 256) ∧
    Function.Bijective storeBytes

/-- R121, R122: lane `z` of every row of SubRows' output is the S-box table's entry at lane `z` of the input, a lane being the
number `8p + 4q + 2r + s`. -/
def Obligations.SubRowsIsTheSBoxInEveryLane : Prop :=
  let lane : Grid → Fin 4 → Fin 16 → Nat := fun g i z =>
    8 * ((g[flat i 0]).getLsbD z).toNat + 4 * ((g[flat i 1]).getLsbD z).toNat + 2 * ((g[flat i 2]).getLsbD z).toNat +
      ((g[flat i 3]).getLsbD z).toNat
  ∀ (g : Grid) (i : Fin 4) (z : Fin 16),
    [0x0, 0x4, 0x8, 0xF, 0x1, 0x5, 0xE, 0x9, 0x2, 0x7, 0xA, 0xC, 0xB, 0xD, 0x6, 0x3][lane g i z]? =
      some (lane (subRows g) i z)

/-- R123: SubRows is a bijection on the whole state, and (read off the table) an involution. -/
def Obligations.SubRowsIsABijection : Prop :=
  Function.Bijective subRows ∧ ∀ g, subRows (subRows g) = g

/-- R133: MixSlices is linear, maps the zero state to itself, and commutes with rotating every word by the same amount, for
every parameter set. -/
def Obligations.MixSlicesIsLinear : Prop :=
  ∀ (P : Params) (a b : Grid) (k : Nat),
    mixSlices P (Vector.zipWith (· ^^^ ·) a b) = Vector.zipWith (· ^^^ ·) (mixSlices P a) (mixSlices P b) ∧
      mixSlices P (Vector.replicate 16 0) = Vector.replicate 16 0 ∧
      mixSlices P (a.map fun v => rotLeft v k) = (mixSlices P a).map fun v => rotLeft v k

/-- R131: bit `k` of the mask of row `n` is `M[n][k]`; and the state whose word `k` is `2^k` is mapped to the sixteen masks. -/
def Obligations.MaskBitsAreTheMatrix : Prop :=
  ∀ (P : Params),
    (∀ n k : Fin 16, (maskOf P n).getLsbD k = P.m n k) ∧
      ∀ n : Fin 16, (mixSlices P (Vector.ofFn fun k => BitVec.ofNat 16 (2 ^ k.val)))[n] = maskOf P n

/-- R143: ShiftPlanes is a bijection, its inverse rotates each row left by the same amount, it is linear, and only the parity of
the round index matters, for every parameter set. -/
def Obligations.ShiftPlanesLaws : Prop :=
  ∀ (P : Params) (i : BitVec 4) (a b : Grid),
    Function.Bijective (shiftPlanes P i) ∧
      (∀ n : Fin 16, rotLeft (shiftPlanes P i a)[n] (P.rot (if i.toNat % 2 = 0 then 0 else 1) ⟨n.val / 4, by omega⟩).toNat = a[n]) ∧
      shiftPlanes P i (Vector.zipWith (· ^^^ ·) a b) =
        Vector.zipWith (· ^^^ ·) (shiftPlanes P i a) (shiftPlanes P i b) ∧
      shiftPlanes P i = shiftPlanes P (BitVec.ofNat 4 (i.toNat % 2))

/-- R150 and the corner cases of R151: the constant of round `i` and index `n` is `C1` (even `n`) or `C2` (odd `n`) rotated left
by `(i + n) mod 16`; `RC(i, n) = RC(i + 2, n - 2)`; AddConstant maps the zero state to the constants and is its own inverse. -/
def Obligations.RoundConstantLaws : Prop :=
  ∀ (P : Params) (i : BitVec 4) (n : Fin 16) (g : Grid),
    (n.val % 2 = 0 → roundConstant P i n = rotLeft P.c1 ((i.toNat + n.val) % 16)) ∧
      (n.val % 2 = 1 → roundConstant P i n = rotLeft P.c2 ((i.toNat + n.val) % 16)) ∧
      (∀ (j : BitVec 4) (k : Fin 16), i.toNat + 2 = j.toNat → k.val + 2 = n.val →
        roundConstant P i n = roundConstant P j k) ∧
      addConstant P i (Vector.replicate 16 0) = Vector.ofFn (roundConstant P i) ∧
      addConstant P i (addConstant P i g) = g

/-- 95_test_vectors.md P1: round 0 takes the zero state to the constants of round 0, for every parameter set. -/
def Obligations.FirstRoundOfZeroGivesTheConstants : Prop :=
  ∀ P : Params, roundGrid P 0 (loadGrid 0) = Vector.ofFn (roundConstant P 0)

/-- 95_test_vectors.md B7: under the identity parameters (no constants, no rotations, `M` the identity) the permutation emits
its operand: sixteen is even and SubRows is an involution. -/
def Obligations.IdentityParametersPermuteToTheOperand : Prop :=
  ∀ (P : Params), P.c1 = 0 → P.c2 = 0 → (∀ p r, P.rot p r = 0) → (∀ n k, P.m n k = decide (n = k)) →
    ∀ x < 2 ^ 256, (packBytes (permuteBytes P x)).toNat = x

/-- R184: Load, Store, SubRows, ShiftPlanes(i) and AddConstant(i) are bijections for any parameters, MixSlices is one exactly when
`M` is invertible over GF(2), and so is the whole permutation. -/
def Obligations.PermutationIsBijectiveExactlyWhenMatrixIsInvertible : Prop :=
  ∀ P : Params,
    let matrix : Matrix (Fin 16) (Fin 16) (ZMod 2) := Matrix.of fun n k => if P.m n k then 1 else 0
    Function.Bijective (fun x : BitVec 256 => loadGrid x.toNat) ∧ Function.Bijective storeBytes ∧
      Function.Bijective subRows ∧ (∀ i, Function.Bijective (shiftPlanes P i)) ∧
      (∀ i, Function.Bijective (addConstant P i)) ∧ (Function.Bijective (mixSlices P) ↔ IsUnit matrix) ∧
      (Function.Bijective (fun x : BitVec 256 => permuteBytes P x.toNat) ↔ IsUnit matrix)

/-! ## The call as a whole -/

/-- R170: the next `(PH, RND)` is a function of the current one alone, for every micro-operation as `step` runs it and for the
steps that leave it unchanged. -/
def Obligations.ControlTransferTable : Prop :=
  ∀ s : State, s.port.rst = false →
    (s.accepts → s.port.cmdOp = 1 → s.engine.configured = true → s.port.cmdData < 2 ^ 256 →
      ∃ t, step s = .next t ∧ t.engine.ph = 1 ∧ t.engine.rnd = 0) ∧
    (s.engine.rspValid = false → s.engine.ph = 1 ∨ s.engine.ph = 2 ∨ s.engine.ph = 3 →
      ∃ t, step s = .next t ∧ t.engine.ph = s.engine.ph + 1 ∧ t.engine.rnd = s.engine.rnd) ∧
    (s.engine.rspValid = false → s.engine.ph = 4 → s.engine.rnd ≠ 15 →
      ∃ t, step s = .next t ∧ t.engine.ph = 1 ∧ t.engine.rnd = s.engine.rnd + 1) ∧
    (s.engine.rspValid = false → s.engine.ph = 4 → s.engine.rnd = 15 →
      ∃ t, step s = .next t ∧ t.engine.ph = 5 ∧ t.engine.rnd = 0) ∧
    (s.engine.rspValid = false → s.engine.ph = 5 → s.engine.rnd = 0 →
      ∃ t, step s = .next t ∧ t.engine.ph = 0 ∧ t.engine.rnd = 0) ∧
    (s.accepts → (s.port.cmdOp = 0 ∨ s.engine.configured = false ∨ 2 ^ 256 ≤ s.port.cmdData) →
      ∃ t, step s = .next t ∧ t.engine.ph = s.engine.ph ∧ t.engine.rnd = s.engine.rnd) ∧
    (s.takes → s.engine.ph = 0 → ∃ t, step s = .next t ∧ t.engine.ph = s.engine.ph ∧ t.engine.rnd = s.engine.rnd)

/-- R171: after the step that accepts a valid PERMUTE, entry `k` of the microprogram is what the `k`-th further step executes:
`(PH, RND)` before entry `1 + 4i + p` is `(1 + p, i)`, before entry 65 it is `(5, 0)`. The same for every operand, and whatever
the host presents meanwhile, short of reset. -/
def Obligations.MicroprogramHasSixtySixEntries : Prop :=
  ∀ s : State, s.accepts → s.port.cmdOp = 1 → s.engine.configured = true → s.port.cmdData < 2 ^ 256 → s.noResetFor 66 →
    (∀ (i : Fin 16) (p : Fin 4), ∃ t, runSteps (1 + 4 * i.val + p.val) s = .next t ∧
      t.engine.ph = BitVec.ofNat 3 (1 + p.val) ∧ t.engine.rnd = BitVec.ofNat 4 i.val ∧ t.engine.rspValid = false) ∧
    (∃ t, runSteps 65 s = .next t ∧ t.engine.ph = 5 ∧ t.engine.rnd = 0 ∧ t.engine.rspValid = false) ∧
    ∃ t, runSteps 66 s = .next t ∧ t.engine.ph = 0 ∧ t.engine.rnd = 0 ∧ t.engine.rspValid = true

/-- R172: from `(p, i)` with `p` in 1..4 the engine is idle with a response valid after exactly `(5 - p) + 4 * (15 - i) + 1`
steps, from `p = 5` after one, and not before; no other quantity enters. -/
def Obligations.TerminationInAFixedNumberOfSteps : Prop :=
  ∀ s : State, 1 ≤ s.engine.ph.toNat → s.engine.ph.toNat ≤ 5 → s.engine.rspValid = false →
    let steps := if s.engine.ph = 5 then 1 else (5 - s.engine.ph.toNat) + 4 * (15 - s.engine.rnd.toNat) + 1
    s.noResetFor steps →
      (∃ t, runSteps steps s = .next t ∧ t.engine.ph = 0 ∧ t.engine.rspValid = true) ∧
      ∀ k < steps, ∃ t, runSteps k s = .next t ∧ t.engine.ph ≠ 0 ∧ t.engine.rspValid = false

/-- R181, R15, R194: for a configured, idle engine with no response pending that accepts PERMUTE x with `x < 2^256`, 65 further
steps later the response is valid, its status is `OK` and byte `m` is `Permute(x)[m]`; nothing was taken meanwhile is still configured; and the host's take then receives exactly that pair. That the 66 edges use up 66 input samples is log 1, and
`taken` is log 2. -/
def Obligations.PermuteRespondsWithThePermutation : Prop :=
  ∀ s : State, s.accepts → s.port.cmdOp = 1 → s.engine.configured = true → s.port.cmdData < 2 ^ 256 → s.noResetFor 66 →
    ∃ t, runSteps 66 s = .next t ∧ t.engine.ph = 0 ∧ t.engine.rspValid = true ∧ t.engine.rspStatus = 0 ∧
      (∀ m : Fin 32, t.engine.rspData.extractLsb' (8 * m.val) 8 = (permuteBytes Config.params s.port.cmdData)[m]) ∧
      t.taken = s.taken ∧ t.engine.configured = true ∧ t.inputs = s.inputs.drop 66 ∧
      (t.takes → ∃ u, step t = .next u ∧ u.engine.rspValid = false ∧
        u.taken = s.taken ++ [⟨0, packBytes (permuteBytes Config.params s.port.cmdData)⟩])

/-- R182: two accepted PERMUTEs of the same operand, in any two states, get identical responses. -/
def Obligations.PermuteIsDeterministic : Prop :=
  ∀ s t : State, s.accepts → t.accepts → s.port.cmdOp = 1 → t.port.cmdOp = 1 → s.engine.configured = true →
    t.engine.configured = true → s.port.cmdData = t.port.cmdData → s.port.cmdData < 2 ^ 256 → s.noResetFor 66 →
    t.noResetFor 66 →
    ∃ s' t', runSteps 66 s = .next s' ∧ runSteps 66 t = .next t' ∧ s'.engine.rspValid = true ∧ t'.engine.rspValid = true ∧
      s'.engine.rspStatus = t'.engine.rspStatus ∧ s'.engine.rspData = t'.engine.rspData

/-- R160, R62: every accepted command produces exactly one response, strictly later than it is accepted. A command answered at once
is answered by the accepting step, whatever resets come afterwards; a PERMUTE that passes both checks by the 66th step, if no reset
falls on those edges. No earlier step makes a response valid and the host has taken nothing meanwhile; the response is held until
the host takes it; and from the take on, while the host presents no command, no further response becomes valid and none is
received. That each edge uses up one input sample is log 1; that `taken` holds what was received, over later resets too, is log 2. -/
def Obligations.EveryAcceptedCommandIsAnsweredOnce : Prop :=
  ∀ s : State, s.accepts → (s.answersAtOnce ∨ s.noResetFor 66) →
    ∃ k t, (s.answersAtOnce → k = 1) ∧ (s.startsCall → k = 66) ∧ 1 ≤ k ∧ k ≤ 66 ∧
      runSteps k s = .next t ∧ t.engine.rspValid = true ∧ t.taken = s.taken ∧
      (∀ j < k, ∃ u, runSteps j s = .next u ∧ u.engine.rspValid = false ∧ u.taken = s.taken) ∧
      ∀ m, (∀ p ∈ t.inputs.take m, p.rst = false ∧ p.rspReady = false) →
        let w := { t with inputs := t.inputs.drop m }
        runSteps m t = .next w ∧
          (w.takes → ∀ n, (∀ p ∈ w.inputs.tail.take n, p.cmdValid = false) →
            ∃ u, runSteps (n + 1) w = .next u ∧ u.engine.rspValid = false ∧
              u.taken = s.taken ++ [⟨t.engine.rspStatus, t.engine.rspData⟩])

/-- R222: a reset during a call abandons it: while the host presents no further command, no response becomes valid and none is
received, for as long as one looks, though the host may go on asserting reset. That it holds from every state, `PH` 6 and 7
included, is log 11; that `taken` is kept over a reset is log 2, and the samples of the coming edges are log 1. -/
def Obligations.ResetAbandonsTheCall : Prop :=
  ∀ (s : State) (k : Nat), s.port.rst = true → (∀ p ∈ s.inputs.tail.take k, p.cmdValid = false) →
    ∃ t, runSteps (k + 1) s = .next t ∧ t.engine.ph = 0 ∧ t.engine.rspValid = false ∧ t.engine.configured = false ∧
      t.taken = s.taken

/-! ## Invariants -/

/-- R29, R167, R170, R76, R190: every step keeps the machine's invariant. -/
def Obligations.StepKeepsTheInvariant : Prop :=
  ∀ s t : State, s.Inv → step s = .next t → t.Inv

/-- The invariants hold in the state after reset; that nothing has been taken there is the model's own choice (log 2). -/
def Obligations.InvariantsHoldAfterReset : Prop := State.reset.Inv ∧ State.reset.CallInv

/-- R29, R194: from every state that meets the invariant the machine runs for any number of steps without a stop, whatever the
host does. -/
def Obligations.EngineNeverStopsUnderTheInvariant : Prop :=
  ∀ (s : State) (k : Nat), s.Inv → ∃ t, runSteps k s = .next t ∧ t.Inv

/-- R171, R180, R181, R23: every step keeps the invariant of calls, and a call keeps its operand. The step that accepts a valid
PERMUTE `x` leaves in `G` what R180 says for that `x` at the entry it leads to. For each fixed `x`: if `G` during a call is what
R180 says for `x`, then so it is at the next entry, with no response and nothing received; and after STORE the response is
`(OK, Permute(x))`. -/
def Obligations.StepKeepsTheCallInvariant : Prop :=
  ∀ s t : State, step s = .next t →
    (s.CallInv → t.CallInv) ∧
    (s.startsCall → t.engine.ph ≠ 0 ∧ t.engine.g = gridAt Config.params t.engine.ph t.engine.rnd s.port.cmdData) ∧
    ∀ x : Nat, s.Inv → s.engine.ph ≠ 0 → s.port.rst = false →
      s.engine.g = gridAt Config.params s.engine.ph s.engine.rnd x →
        (s.engine.ph ≠ 5 → t.engine.ph ≠ 0 ∧ t.engine.g = gridAt Config.params t.engine.ph t.engine.rnd x ∧
          t.engine.rspValid = false ∧ t.taken = s.taken) ∧
        (s.engine.ph = 5 → t.engine.ph = 0 ∧ t.engine.rspValid = true ∧ t.engine.rspStatus = 0 ∧
          t.engine.rspData = packBytes (permuteBytes Config.params x) ∧ t.taken = s.taken)

/-! ## Whole-machine rules -/

/-- R20's "Written by" column, R23, R28, R165: each of the seven registers changes in a step without reset only where one of its
writers runs. That the values of `RSP_STATUS` and `RSP_DATA` may change in a take, after which they are unspecified, is log 6; the
last clause, on what the host has received, is log 2's form. -/
def Obligations.RegistersAreWrittenOnlyByTheirWriters : Prop :=
  ∀ s t : State, step s = .next t → s.port.rst = false →
    (t.engine.g ≠ s.engine.g → s.startsCall ∨ (1 ≤ s.engine.ph.toNat ∧ s.engine.ph.toNat ≤ 4)) ∧
    (t.engine.rnd ≠ s.engine.rnd → s.startsCall ∨ s.engine.ph = 4) ∧
    (t.engine.ph ≠ s.engine.ph → s.startsCall ∨ (1 ≤ s.engine.ph.toNat ∧ s.engine.ph.toNat ≤ 5)) ∧
    (t.engine.configured ≠ s.engine.configured → s.accepts ∧ s.port.cmdOp = 0) ∧
    (t.engine.rspValid ≠ s.engine.rspValid ∨ t.engine.rspStatus ≠ s.engine.rspStatus ∨
        t.engine.rspData ≠ s.engine.rspData →
      s.answersAtOnce ∨ s.engine.ph = 5 ∨ s.takes) ∧
    (t.taken ≠ s.taken → s.takes)

/-- R24, R182, R221: what the spec calls unspecified has no influence: two states that differ only there give the host the same
outputs, now and after any number of steps under the same inputs, and stop alike. -/
def Obligations.UnspecifiedStateHasNoInfluence : Prop :=
  ∀ (s t : State) (k : Nat), s.SameForHost t →
    s.engine.outputs = t.engine.outputs ∧
      (∀ s', runSteps k s = .next s' →
        ∃ t', runSteps k t = .next t' ∧ s'.SameForHost t' ∧ s'.engine.outputs = t'.engine.outputs) ∧
      ∀ f, runSteps k s = .fault f → runSteps k t = .fault f

/-- R27, R232: data-independent time: two states with the same sequencer, configuration and response-valid bit, under inputs that
differ at most in the operands of PERMUTEs that are both in range or both out of it, stay so for any number of steps; no bit of
`G`, of a response or of an operand reaches the sequencer. -/
def Obligations.SequencingIsIndependentOfData : Prop :=
  ∀ (s t : State) (k : Nat), s.SameControl t → ∀ s', runSteps k s = .next s' →
    ∃ t', runSteps k t = .next t' ∧ s'.SameControl t' ∧ s'.engine.cmdReady = t'.engine.cmdReady
end

