-- ==== Sys2Proof/Laws/State.lean ====
section
/-! SUPPORT. One lemma per field of State per update, so that no later proof unfolds an update. The engine's own fields follow
by reducing a projection of a structure literal, which simp does by itself. -/

namespace Sys2Proof.Machine

variable (s : State)

@[simp] theorem State.setGrid_engine (g : Grid) : (s.setGrid g).engine = { s.engine with g := g } := rfl
@[simp] theorem State.setGrid_inputs (g : Grid) : (s.setGrid g).inputs = s.inputs := rfl
@[simp] theorem State.setGrid_taken (g : Grid) : (s.setGrid g).taken = s.taken := rfl
@[simp] theorem State.setGrid_freeCount (g : Grid) : (s.setGrid g).freeCount = s.freeCount := rfl

@[simp] theorem State.setUPC_engine (ph : BitVec 3) (rnd : BitVec 4) : (s.setUPC ph rnd).engine = { s.engine with ph := ph, rnd := rnd } := rfl
@[simp] theorem State.setUPC_inputs (ph : BitVec 3) (rnd : BitVec 4) : (s.setUPC ph rnd).inputs = s.inputs := rfl
@[simp] theorem State.setUPC_taken (ph : BitVec 3) (rnd : BitVec 4) : (s.setUPC ph rnd).taken = s.taken := rfl
@[simp] theorem State.setUPC_freeCount (ph : BitVec 3) (rnd : BitVec 4) : (s.setUPC ph rnd).freeCount = s.freeCount := rfl

@[simp] theorem State.setConfigured_engine (b : Bool) : (s.setConfigured b).engine = { s.engine with configured := b } := rfl
@[simp] theorem State.setConfigured_inputs (b : Bool) : (s.setConfigured b).inputs = s.inputs := rfl
@[simp] theorem State.setConfigured_taken (b : Bool) : (s.setConfigured b).taken = s.taken := rfl
@[simp] theorem State.setConfigured_freeCount (b : Bool) : (s.setConfigured b).freeCount = s.freeCount := rfl

@[simp] theorem State.respond_engine (st : Status) (data : BitVec 256) : (s.respond st data).engine = { s.engine with rspStatus := st.code, rspData := data, rspValid := true } := rfl
@[simp] theorem State.respond_inputs (st : Status) (data : BitVec 256) : (s.respond st data).inputs = s.inputs := rfl
@[simp] theorem State.respond_taken (st : Status) (data : BitVec 256) : (s.respond st data).taken = s.taken := rfl
@[simp] theorem State.respond_freeCount (st : Status) (data : BitVec 256) : (s.respond st data).freeCount = s.freeCount := rfl

@[simp] theorem State.raise_engine (e : ErrorKind) : (s.raise e).engine = { s.engine with rspStatus := e.code, rspData := 0, rspValid := true } := rfl
@[simp] theorem State.raise_inputs (e : ErrorKind) : (s.raise e).inputs = s.inputs := rfl
@[simp] theorem State.raise_taken (e : ErrorKind) : (s.raise e).taken = s.taken := rfl
@[simp] theorem State.raise_freeCount (e : ErrorKind) : (s.raise e).freeCount = s.freeCount := rfl

@[simp] theorem State.makeReady_engine : s.makeReady.engine = { s.engine with ph := 0, rspValid := false } := rfl
@[simp] theorem State.makeReady_inputs : s.makeReady.inputs = s.inputs := rfl
@[simp] theorem State.makeReady_taken : s.makeReady.taken = s.taken := rfl
@[simp] theorem State.makeReady_freeCount : s.makeReady.freeCount = s.freeCount := rfl

@[simp] theorem State.setPort_engine (p : PortSample) : (s.setPort p).engine = s.engine := rfl
@[simp] theorem State.setPort_inputs (p : PortSample) : (s.setPort p).inputs = p :: s.inputs.tail := rfl
@[simp] theorem State.setPort_taken (p : PortSample) : (s.setPort p).taken = s.taken := rfl
@[simp] theorem State.setPort_freeCount (p : PortSample) : (s.setPort p).freeCount = s.freeCount := rfl

@[simp] theorem State.advance_engine : s.advance.engine = s.engine := rfl
@[simp] theorem State.advance_inputs : s.advance.inputs = s.inputs.tail := rfl
@[simp] theorem State.advance_taken : s.advance.taken = s.taken := rfl
@[simp] theorem State.advance_freeCount : s.advance.freeCount = s.freeCount := rfl

@[simp] theorem State.takeResponse_engine : s.takeResponse.engine =
    { s.engine with rspValid := false, rspStatus := Config.freeStatus s.freeCount, rspData := Config.freeData s.freeCount } := rfl
@[simp] theorem State.takeResponse_inputs : s.takeResponse.inputs = s.inputs := rfl
@[simp] theorem State.takeResponse_taken : s.takeResponse.taken = s.taken ++ [⟨s.engine.rspStatus, s.engine.rspData⟩] := rfl
@[simp] theorem State.takeResponse_freeCount : s.takeResponse.freeCount = s.freeCount + 1 := rfl

@[simp] theorem State.resetEdge_engine : s.resetEdge.engine =
    ⟨Vector.ofFn (Config.freeWord s.freeCount), 0, 0, false, false, Config.freeStatus s.freeCount, Config.freeData s.freeCount⟩ := rfl
@[simp] theorem State.resetEdge_inputs : s.resetEdge.inputs = s.inputs := rfl
@[simp] theorem State.resetEdge_taken : s.resetEdge.taken = s.taken := rfl
@[simp] theorem State.resetEdge_freeCount : s.resetEdge.freeCount = s.freeCount + 1 := rfl

@[simp] theorem State.loadOperand_engine (x : Nat) :
    (s.loadOperand x).engine = { s.engine with g := loadGrid x, ph := 1, rnd := 0 } := rfl
@[simp] theorem State.loadOperand_inputs (x : Nat) : (s.loadOperand x).inputs = s.inputs := rfl
@[simp] theorem State.loadOperand_taken (x : Nat) : (s.loadOperand x).taken = s.taken := rfl
@[simp] theorem State.loadOperand_freeCount (x : Nat) : (s.loadOperand x).freeCount = s.freeCount := rfl

@[simp] theorem State.setPort_port (p : PortSample) : (s.setPort p).port = p := rfl
@[simp] theorem State.setPort_advance (p : PortSample) : (s.setPort p).advance = s.advance := rfl

theorem State.port_cons {p : PortSample} {ps : List PortSample} (h : s.inputs = p :: ps) : s.port = p := by
  simp [State.port, h]

theorem State.port_nil (h : s.inputs = []) : s.port = .quiet := by
  simp [State.port, h]

@[simp] theorem closeEdge_next : closeEdge (.next s) = .next s.advance := rfl

@[simp] theorem Status.code_ok : Status.ok.code = 0 := rfl
@[simp] theorem Status.code_error (e : ErrorKind) : (Status.error e).code = e.code := rfl
@[simp] theorem ErrorKind.code_unsupported : ErrorKind.unsupportedConfiguration.code = 1 := rfl
@[simp] theorem ErrorKind.code_outOfRange : ErrorKind.inputOutOfRange.code = 2 := rfl

theorem Engine.cmdReady_iff (e : Engine) : e.cmdReady = true ↔ e.ph = 0 ∧ e.rspValid = false := by
  simp [Engine.cmdReady]

theorem inRange_iff (x : Nat) : inRange x = true ↔ x < 2 ^ 256 := by
  simp only [inRange, decide_eq_true_eq]

/-! What an accepted command does, case by case (R161, R162). -/

theorem State.configure_supported {cfgOk cfg : Nat} (h : cfg = cfgOk) :
    s.configure cfgOk cfg = (s.setConfigured true).respond .ok 0 := if_pos h

theorem State.configure_unsupported {cfgOk cfg : Nat} (h : cfg ≠ cfgOk) :
    s.configure cfgOk cfg = (s.setConfigured false).raise .unsupportedConfiguration := if_neg h

theorem State.permute_unconfigured (x : Nat) (h : s.engine.configured = false) :
    s.permute x = s.raise .unsupportedConfiguration := by
  simp [State.permute, h]

theorem State.permute_outOfRange {x : Nat} (h : s.engine.configured = true) (hx : 2 ^ 256 ≤ x) :
    s.permute x = s.raise .inputOutOfRange := by
  have : inRange x = false := decide_eq_false (Nat.not_lt.2 hx)
  simp [State.permute, h, this]

theorem State.permute_valid {x : Nat} (h : s.engine.configured = true) (hx : x < 2 ^ 256) :
    s.permute x = s.loadOperand x := by
  have : inRange x = true := decide_eq_true hx
  simp [State.permute, h, this]

end Sys2Proof.Machine
end

