-- ==== Sys2Proof/Laws/Step.lean ====
section
/-! SUPPORT. What a step can do, said once: the edge selected in each case, `exec`'s answers, and the inversion of `step`. -/

namespace Sys2Proof.Machine

variable {s t : State}

/-- The meanings' answers as equations, so that no proof unfolds `exec`. -/
theorem exec_configure (cfg : Nat) : exec (.configure cfg) s =
    .next (if s.engine.cmdReady then s.configure Config.params.cfgOk.toNat cfg else s) := rfl
theorem exec_permute (x : Nat) : exec (.permute x) s = .next (if s.engine.cmdReady then s.permute x else s) := rfl
theorem exec_load (r : BitVec 4) : exec (.load r) s = .next (s.loadOperand s.port.cmdData) := rfl
theorem exec_subrows (r : BitVec 4) : exec (.subrows r) s =
    .next { s with engine := { s.engine with g := subRows s.engine.g, ph := 2 } } := rfl
theorem exec_mixslices (r : BitVec 4) : exec (.mixslices r) s =
    .next { s with engine := { s.engine with g := mixSlices Config.params s.engine.g, ph := 3 } } := rfl
theorem exec_shiftplanes (r : BitVec 4) : exec (.shiftplanes r) s =
    .next { s with engine := { s.engine with g := shiftPlanes Config.params r s.engine.g, ph := 4 } } := rfl
theorem exec_addconstant (r : BitVec 4) : exec (.addconstant r) s =
    .next { s with engine := { s.engine with
      g := addConstant Config.params r s.engine.g, ph := phaseAfterRound r, rnd := r + 1 } } := rfl
theorem exec_store (r : BitVec 4) : exec (.store r) s =
    .next { s with engine := { s.engine with
      rspValid := true, rspStatus := 0, rspData := packBytes (storeBytes s.engine.g), ph := 0 } } := rfl

/-- No meaning stops. -/
theorem exec_next (i : Instr) (s : State) : ∃ t, exec i s = .next t := by
  cases i <;> exact ⟨_, rfl⟩

theorem step_reset (h : s.port.rst = true) : step s = .next s.resetEdge.advance := by
  simp [step, State.edge, selectEdge, h]

theorem step_take (hr : s.port.rst = false) (hp : s.engine.phaseReserved = false) (hv : s.engine.rspValid = true)
    (hy : s.port.rspReady = true) : step s = .next s.takeResponse.advance := by
  simp [step, State.edge, selectEdge, hr, hp, hv, hy]

theorem step_accept (h : s.accepts) : step s = closeEdge (exec (decodeCmd s.port.cmdOp s.port.cmdData) s) := by
  obtain ⟨hr, hc, hp, hv⟩ := h
  have h6 : s.engine.phaseReserved = false := by simp [Engine.phaseReserved, hp]
  simp [step, State.edge, selectEdge, hr, hc, hp, hv, h6, Engine.cmdReady]

theorem step_wait (hr : s.port.rst = false) (hp : s.engine.ph = 0) (ha : ¬s.accepts) (ht : ¬s.takes) :
    step s = .next s.advance := by
  have h6 : s.engine.phaseReserved = false := by simp [Engine.phaseReserved, hp]
  have ht' : (s.engine.rspValid && s.port.rspReady) = false := by
    simp only [State.takes] at ht
    cases h1 : s.engine.rspValid <;> cases h2 : s.port.rspReady <;> simp_all
  have ha' : (s.engine.cmdReady && s.port.cmdValid) = false := by
    simp only [State.accepts] at ha
    cases h1 : s.engine.rspValid <;> cases h2 : s.port.cmdValid <;> simp_all [Engine.cmdReady]
  simp [step, State.edge, selectEdge, hr, h6, ht', ha', hp]

theorem step_uop (hr : s.port.rst = false) (hp : s.engine.ph ≠ 0) (ht : ¬s.takes) {i : Instr}
    (hd : decodeUop s.engine.ph s.engine.rnd = .ok i) : step s = closeEdge (exec i s) := by
  have h6 : s.engine.phaseReserved = false := by
    revert hd
    simp only [decodeUop, Engine.phaseReserved]
    split <;> simp_all
  have ht' : (s.engine.rspValid && s.port.rspReady) = false := by
    simp only [State.takes] at ht
    cases h1 : s.engine.rspValid <;> cases h2 : s.port.rspReady <;> simp_all
  simp only [step, State.edge, selectEdge, hr, h6, ht', if_neg hp, hd, Bool.false_eq_true, if_false]

theorem step_reserved (hr : s.port.rst = false) (h6 : s.engine.phaseReserved = true) :
    step s = .fault (.reservedPhase s.engine.ph) := by
  simp [step, State.edge, selectEdge, hr, h6]

/-- The decoder on each legal phase but 0 (R74). -/
theorem decodeUop_of_phase {ph : BitVec 3} (r : BitVec 4) (h0 : ph ≠ 0) (h5 : ph.toNat ≤ 5) :
    (ph = 1 ∧ decodeUop ph r = .ok (.subrows r)) ∨ (ph = 2 ∧ decodeUop ph r = .ok (.mixslices r)) ∨
      (ph = 3 ∧ decodeUop ph r = .ok (.shiftplanes r)) ∨ (ph = 4 ∧ decodeUop ph r = .ok (.addconstant r)) ∨
      (ph = 5 ∧ decodeUop ph r = .ok (.store r)) := by
  have h : ph = 0 ∨ ph = 1 ∨ ph = 2 ∨ ph = 3 ∨ ph = 4 ∨ ph = 5 ∨ ph = 6 ∨ ph = 7 := by
    clear h0 h5; revert ph; decide
  rcases h with rfl | rfl | rfl | rfl | rfl | rfl | rfl | rfl <;> simp_all [decodeUop]

/-! The step of each phase, forwards (R80, R120, R130, R140, R151, R112). -/

theorem step_subrows (hr : s.port.rst = false) (ht : ¬s.takes) (hp : s.engine.ph = 1) :
    step s = .next { s with engine := { s.engine with g := subRows s.engine.g, ph := 2 }, inputs := s.inputs.tail } := by
  rw [step_uop hr (by rw [hp]; decide) ht (i := .subrows s.engine.rnd) (by rw [hp]; rfl), exec_subrows]; rfl

theorem step_mixslices (hr : s.port.rst = false) (ht : ¬s.takes) (hp : s.engine.ph = 2) :
    step s = .next { s with
      engine := { s.engine with g := mixSlices Config.params s.engine.g, ph := 3 }, inputs := s.inputs.tail } := by
  rw [step_uop hr (by rw [hp]; decide) ht (i := .mixslices s.engine.rnd) (by rw [hp]; rfl), exec_mixslices]; rfl

theorem step_shiftplanes (hr : s.port.rst = false) (ht : ¬s.takes) (hp : s.engine.ph = 3) :
    step s = .next { s with
      engine := { s.engine with g := shiftPlanes Config.params s.engine.rnd s.engine.g, ph := 4 }
      inputs := s.inputs.tail } := by
  rw [step_uop hr (by rw [hp]; decide) ht (i := .shiftplanes s.engine.rnd) (by rw [hp]; rfl), exec_shiftplanes]; rfl

theorem step_addconstant (hr : s.port.rst = false) (ht : ¬s.takes) (hp : s.engine.ph = 4) :
    step s = .next { s with
      engine := { s.engine with
        g := addConstant Config.params s.engine.rnd s.engine.g
        ph := phaseAfterRound s.engine.rnd
        rnd := s.engine.rnd + 1 }
      inputs := s.inputs.tail } := by
  rw [step_uop hr (by rw [hp]; decide) ht (i := .addconstant s.engine.rnd) (by rw [hp]; rfl), exec_addconstant]; rfl

theorem step_store (hr : s.port.rst = false) (ht : ¬s.takes) (hp : s.engine.ph = 5) :
    step s = .next { s with
      engine := { s.engine with
        rspValid := true, rspStatus := 0, rspData := packBytes (storeBytes s.engine.g), ph := 0 }
      inputs := s.inputs.tail } := by
  rw [step_uop hr (by rw [hp]; decide) ht (i := .store s.engine.rnd) (by rw [hp]; rfl), exec_store]; rfl

/-- Everything a step can do when it answers a next state: a reset, a take, an accepted command, one of the five micro-operations
that have a phase, or a wait, each with the condition it happens under. -/
theorem step_cases (h : step s = .next t) :
    (s.port.rst = true ∧ t = s.resetEdge.advance) ∨
    (s.port.rst = false ∧
      ((s.takes ∧ s.engine.ph.toNat ≤ 5 ∧ t = s.takeResponse.advance) ∨
       (s.accepts ∧ s.port.cmdOp = 0 ∧ t = (s.configure Config.params.cfgOk.toNat s.port.cmdData).advance) ∨
       (s.accepts ∧ s.port.cmdOp = 1 ∧ t = (s.permute s.port.cmdData).advance) ∨
       (¬s.takes ∧ s.engine.ph = 0 ∧ ¬s.accepts ∧ t = s.advance) ∨
       (¬s.takes ∧ s.engine.ph = 1 ∧ t = ((s.setGrid (subRows s.engine.g)).setUPC 2 s.engine.rnd).advance) ∨
       (¬s.takes ∧ s.engine.ph = 2 ∧
          t = ((s.setGrid (mixSlices Config.params s.engine.g)).setUPC 3 s.engine.rnd).advance) ∨
       (¬s.takes ∧ s.engine.ph = 3 ∧
          t = ((s.setGrid (shiftPlanes Config.params s.engine.rnd s.engine.g)).setUPC 4 s.engine.rnd).advance) ∨
       (¬s.takes ∧ s.engine.ph = 4 ∧
          t = ((s.setGrid (addConstant Config.params s.engine.rnd s.engine.g)).setUPC
            (phaseAfterRound s.engine.rnd) (s.engine.rnd + 1)).advance) ∨
       (¬s.takes ∧ s.engine.ph = 5 ∧
          t = ((s.respond .ok (packBytes (storeBytes s.engine.g))).setUPC 0 s.engine.rnd).advance))) := by
  cases hr : s.port.rst
  · refine .inr ⟨rfl, ?_⟩
    by_cases h6 : s.engine.phaseReserved = true
    · rw [step_reserved hr h6] at h; cases h
    have h5 : s.engine.ph.toNat ≤ 5 := by simp only [Engine.phaseReserved, decide_eq_true_eq] at h6; omega
    by_cases ht : s.takes
    · obtain ⟨_, hy, hv⟩ := ht
      rw [step_take hr (by simpa using h6) hv hy] at h
      cases h
      exact .inl ⟨⟨hr, hy, hv⟩, h5, rfl⟩
    refine .inr ?_
    by_cases hp : s.engine.ph = 0
    · by_cases ha : s.accepts
      · have hrdy : s.engine.cmdReady = true := (Engine.cmdReady_iff _).2 ⟨ha.2.2.1, ha.2.2.2⟩
        rw [step_accept ha] at h
        by_cases ho : s.port.cmdOp = 0
        · simp only [decodeCmd, ho, if_true, exec_configure, hrdy, closeEdge_next] at h
          cases h
          exact .inl ⟨ha, ho, rfl⟩
        · have ho1 : s.port.cmdOp = 1 := by revert ho; generalize s.port.cmdOp = o; revert o; decide
          simp only [decodeCmd, ho, if_false, exec_permute, hrdy, if_true, closeEdge_next] at h
          cases h
          exact .inr (.inl ⟨ha, ho1, rfl⟩)
      · rw [step_wait hr hp ha ht] at h
        cases h
        exact .inr (.inr (.inl ⟨ht, hp, ha, rfl⟩))
    · refine .inr (.inr (.inr ?_))
      rcases decodeUop_of_phase s.engine.rnd hp h5 with ⟨e, hd⟩ | ⟨e, hd⟩ | ⟨e, hd⟩ | ⟨e, hd⟩ | ⟨e, hd⟩ <;>
        rw [step_uop hr hp ht hd] at h
      · exact .inl ⟨ht, e, (Host.Outcome.next.inj h).symm⟩
      · exact .inr (.inl ⟨ht, e, (Host.Outcome.next.inj h).symm⟩)
      · exact .inr (.inr (.inl ⟨ht, e, (Host.Outcome.next.inj h).symm⟩))
      · exact .inr (.inr (.inr (.inl ⟨ht, e, (Host.Outcome.next.inj h).symm⟩)))
      · exact .inr (.inr (.inr (.inr ⟨ht, e, (Host.Outcome.next.inj h).symm⟩)))
  · rw [step_reset hr] at h
    cases h
    exact .inl ⟨rfl, rfl⟩

/-- Running one step and then `k`. -/
theorem runSteps_succ {k : Nat} (h : step s = .next t) : runSteps (k + 1) s = runSteps k t := by
  simp [runSteps, h]

/-- Running `j` steps and then `k`. -/
theorem runSteps_add {j k : Nat} : ∀ {s t : State}, runSteps j s = .next t → runSteps (j + k) s = runSteps k t := by
  induction j with
  | zero => intro s t h; cases h; simp
  | succ j ih =>
    intro s t h
    rw [show j + 1 + k = (j + k) + 1 by omega]
    simp only [runSteps] at h ⊢
    split at h
    · rename_i u _; exact ih h
    · cases h
    · cases h

/-- A property that a step keeps is kept by any number of steps. -/
theorem runSteps_keeps {Q : State → Prop} (hstep : ∀ {s t}, Q s → step s = .next t → Q t) :
    ∀ (k : Nat) {s t : State}, Q s → runSteps k s = .next t → Q t
  | 0, _, _, hs, h => by cases h; exact hs
  | k + 1, s, t, hs, h => by
    simp only [runSteps] at h
    split at h
    · rename_i u hu; exact runSteps_keeps hstep k (hstep hs hu) h
    · cases h
    · cases h

/-- `runSteps` is the host's own way of running the machine. -/
theorem runSteps_eq_core_run : ∀ (k : Nat) (s : State), runSteps k s = Host.Core.run Sys2Proof.core k s
  | 0, _ => rfl
  | k + 1, s => by
    have hc : (Sys2Proof.core).step s = step s := rfl
    simp only [runSteps, Host.Core.run, hc]
    cases step s with
    | next t => exact runSteps_eq_core_run k t
    | fault f => rfl
    | refused r => rfl

end Sys2Proof.Machine
end

