-- ==== Sys2Proof/Laws/Call.lean ====
section
/-! SUPPORT. What `G` holds at each entry of the microprogram, and how inputs without a reset pass along a run. -/

namespace Sys2Proof.Machine

variable (P : Params) (x : Nat) (g : Grid) (i : BitVec 4)

/-- All sixteen round indices. -/
theorem rnd_cases : i = 0 ∨ i = 1 ∨ i = 2 ∨ i = 3 ∨ i = 4 ∨ i = 5 ∨ i = 6 ∨ i = 7 ∨ i = 8 ∨ i = 9 ∨ i = 10 ∨ i = 11 ∨ i = 12 ∨
    i = 13 ∨ i = 14 ∨ i = 15 := by
  revert i; decide

/-- The rounds before round `i + 1` are those before round `i` and then round `i` (R171). -/
theorem roundsBefore_succ (h : i ≠ 15) : roundsBefore P (i + 1) g = roundGrid P i (roundsBefore P i g) := by
  rcases rnd_cases i with rfl | rfl | rfl | rfl | rfl | rfl | rfl | rfl | rfl | rfl | rfl | rfl | rfl | rfl | rfl | rfl <;>
    first | rfl | exact absurd rfl h

/-- All rounds are those before round 15 and then round 15 (R180). -/
theorem roundsGrid_eq : roundsGrid P g = roundGrid P 15 (roundsBefore P 15 g) := rfl

theorem gridAt_start : gridAt P 1 0 x = loadGrid x := rfl
theorem gridAt_subrows : gridAt P 1 i x = roundsBefore P i (loadGrid x) := rfl
theorem gridAt_mixslices : gridAt P 2 i x = subRows (gridAt P 1 i x) := rfl
theorem gridAt_shiftplanes : gridAt P 3 i x = mixSlices P (gridAt P 2 i x) := rfl
theorem gridAt_addconstant : gridAt P 4 i x = shiftPlanes P i (gridAt P 3 i x) := rfl
theorem gridAt_store : gridAt P 5 i x = roundsGrid P (loadGrid x) := rfl

/-- ADDCONSTANT leads from its own entry of one round to SUBROWS' entry of the next (R170, R171). -/
theorem gridAt_next_round (h : i ≠ 15) : gridAt P 1 (i + 1) x = addConstant P i (gridAt P 4 i x) := by
  rw [gridAt_subrows, roundsBefore_succ P _ i h, gridAt_addconstant, gridAt_shiftplanes, gridAt_mixslices, gridAt_subrows,
    roundGrid]

/-- ADDCONSTANT of round 15 leads to STORE's entry (R170, R171). -/
theorem gridAt_last_round (j : BitVec 4) : gridAt P 5 j x = addConstant P 15 (gridAt P 4 15 x) := by
  rw [gridAt_store, roundsGrid_eq, gridAt_addconstant, gridAt_shiftplanes, gridAt_mixslices, gridAt_subrows, roundGrid]

variable {s t : State} {k : Nat}

/-- A state all of whose next `k + 1` edges are free of reset comes to an edge without one. -/
theorem State.noResetFor_port (h : s.noResetFor (k + 1)) : s.port.rst = false := by
  cases hi : s.inputs with
  | nil => rw [State.port_nil s hi]; rfl
  | cons a l => rw [State.port_cons s hi]; apply h; simp [hi]

/-- After one edge, `k` of the `k + 1` reset-free edges are left. -/
theorem State.noResetFor_tail (h : s.noResetFor (k + 1)) (ht : t.inputs = s.inputs.tail) : t.noResetFor k := by
  intro p hp
  rw [ht] at hp
  apply h p
  cases hi : s.inputs with
  | nil => simp [hi] at hp
  | cons a l => simp [hi] at hp ⊢; exact .inr hp

end Sys2Proof.Machine
end

