-- ==== Sys2Proof/Laws/Grid.lean ====
section
/-! SUPPORT. The words of each grid-valued function, one lemma per function, and how rows and columns index the grid. -/

namespace Sys2Proof.Machine

/-- Two grids with the same sixteen words are the same. -/
theorem grid_ext {a b : Grid} (h : ∀ n : Fin 16, a[n] = b[n]) : a = b := by
  apply Vector.ext
  intro i hi
  exact h ⟨i, hi⟩

@[simp] theorem rowOf_flat (i j : Fin 4) : rowOf (flat i j) = i := by
  apply Fin.ext; simp only [rowOf, flat]; omega

@[simp] theorem colOf_flat (i j : Fin 4) : colOf (flat i j) = j := by
  apply Fin.ext; simp only [colOf, flat]; omega

@[simp] theorem flat_rowOf_colOf (n : Fin 16) : flat (rowOf n) (colOf n) = n := by
  apply Fin.ext; simp only [rowOf, colOf, flat]; omega

/-- Every flat index is that of a row and a column. -/
theorem exists_flat (n : Fin 16) : ∃ i j, n = flat i j := ⟨rowOf n, colOf n, (flat_rowOf_colOf n).symm⟩

/-! The words of each grid, at a flat index and (what simp normalizes that to) at a natural one. -/

@[simp] theorem loadGrid_getElem (x n : Nat) (h : n < 16) : (loadGrid x)[n] = operandWord x ⟨n, h⟩ := by simp [loadGrid]

@[simp] theorem subRows_getElem (g : Grid) (n : Nat) (h : n < 16) :
    (subRows g)[n] = rowWord (subRow (gridRow g (rowOf ⟨n, h⟩))) (colOf ⟨n, h⟩) := by simp [subRows]

@[simp] theorem mixSlices_getElem (P : Params) (g : Grid) (n : Nat) (h : n < 16) :
    (mixSlices P g)[n] = mixWord P g ⟨n, h⟩ := by simp [mixSlices]

@[simp] theorem shiftPlanes_getElem (P : Params) (i : BitVec 4) (g : Grid) (n : Nat) (h : n < 16) :
    (shiftPlanes P i g)[n] = rotRight g[n] (shiftAmount P i ⟨n, h⟩) := by simp [shiftPlanes]

@[simp] theorem addConstant_getElem (P : Params) (i : BitVec 4) (g : Grid) (n : Nat) (h : n < 16) :
    (addConstant P i g)[n] = g[n] ^^^ roundConstant P i ⟨n, h⟩ := by simp [addConstant]

@[simp] theorem storeBytes_getElem (g : Grid) (m : Nat) (h : m < 32) : (storeBytes g)[m] = outputByte g ⟨m, h⟩ := by
  simp [storeBytes]

theorem loadGrid_word (x : Nat) (n : Fin 16) : (loadGrid x)[n] = operandWord x n := by simp

theorem subRows_word (g : Grid) (n : Fin 16) :
    (subRows g)[n] = rowWord (subRow (gridRow g (rowOf n))) (colOf n) := by simp

theorem mixSlices_word (P : Params) (g : Grid) (n : Fin 16) : (mixSlices P g)[n] = mixWord P g n := by simp

theorem shiftPlanes_word (P : Params) (i : BitVec 4) (g : Grid) (n : Fin 16) :
    (shiftPlanes P i g)[n] = rotRight g[n] (shiftAmount P i n) := by simp

theorem addConstant_word (P : Params) (i : BitVec 4) (g : Grid) (n : Fin 16) :
    (addConstant P i g)[n] = g[n] ^^^ roundConstant P i n := by simp

theorem storeBytes_byte (g : Grid) (m : Fin 32) : (storeBytes g)[m] = outputByte g m := by simp

/-- SubRows acts on each row by itself (R120). -/
theorem gridRow_subRows (g : Grid) (i : Fin 4) : gridRow (subRows g) i = subRow (gridRow g i) := by
  simp [gridRow, rowWord, subRows_getElem]

/-- The row function is its own inverse (R123). -/
theorem subRow_subRow (w : Row) : subRow (subRow w) = w := by
  obtain ⟨p, q, r, s⟩ := w
  simp only [subRow, Row.mk.injEq]
  refine ⟨?_, ?_, ?_, ?_⟩ <;>
  · apply BitVec.eq_of_getLsbD_eq
    intro k _
    simp only [BitVec.getLsbD_xor, BitVec.getLsbD_and]
    cases p.getLsbD k <;> cases q.getLsbD k <;> cases r.getLsbD k <;> cases s.getLsbD k <;> rfl

/-- Column `j` of row `i` (R21, R22). -/
theorem rowWord_gridRow (g : Grid) (i j : Fin 4) : rowWord (gridRow g i) j = g[flat i j] := by
  match j with
  | 0 => rfl
  | 1 => rfl
  | 2 => rfl
  | 3 => rfl

end Sys2Proof.Machine
end

