-- ==== Sys2Proof/Laws/Codec.lean ====
section
/-! SUPPORT. The bits and bytes of what StateCodec emits (R112, R113). -/

namespace Sys2Proof.Machine

/-- Bit `8m + j` of the little-endian value of a byte sequence is bit `j` of its byte `m` (R75). -/
theorem littleEndian_testBit : ∀ (bs : List Byte) (m j : Nat), j < 8 →
    (littleEndian bs).testBit (8 * m + j) = ((bs[m]?).map (fun b => b.getLsbD j)).getD false
  | [], m, j, _ => by simp [littleEndian]
  | b :: bs, m, j, hj => by
    have h1 : littleEndian (b :: bs) = 2 ^ 8 * littleEndian bs + b.toNat := by
      simp only [littleEndian, List.foldr_cons]; omega
    rw [h1, Nat.two_pow_add_eq_or_of_lt b.isLt, Nat.testBit_or, Nat.testBit_two_pow_mul]
    cases m with
    | zero => simp [show ¬ 8 ≤ j by omega, BitVec.testBit_toNat, hj]
    | succ m =>
      have hb : b.toNat.testBit (8 * (m + 1) + j) = false :=
        Nat.testBit_lt_two_pow (lt_of_lt_of_le b.isLt (Nat.pow_le_pow_right (by omega) (by omega)))
      simp [hb, show 8 * (m + 1) + j - 8 = 8 * m + j by omega, littleEndian_testBit bs m j hj,
        show 8 ≤ 8 * (m + 1) + j by omega]

/-- Bit `8m + j` of `RSP_DATA` is bit `j` of byte `m` (R34, R112). -/
theorem packBytes_getLsbD (bs : Vector Byte 32) (m : Fin 32) (j : Nat) (hj : j < 8) :
    (packBytes bs).getLsbD (8 * m.val + j) = (bs[m]).getLsbD j := by
  simp only [packBytes, BitVec.getLsbD_ofNat, littleEndian_testBit _ _ _ hj]
  simp [show 8 * m.val + j < 256 by omega]

/-- Byte `m` of `RSP_DATA` is byte `m` of the sequence packed there (R34). -/
theorem outputBuffer_packBytes (bs : Vector Byte 32) (m : Fin 32) : outputBuffer (packBytes bs) m = bs[m] := by
  apply BitVec.eq_of_getLsbD_eq
  intro j hj
  simp only [outputBuffer, BitVec.getLsbD_extractLsb', hj, decide_true, Bool.true_and]
  exact packBytes_getLsbD bs m j hj

/-- Bit `16n + j` of what STORE puts on `RSP_DATA` is bit `j` of `G[n]` (R112). -/
theorem packStore_getLsbD (g : Grid) (n j : Fin 16) :
    (packBytes (storeBytes g)).getLsbD (16 * n.val + j.val) = (g[n]).getLsbD j := by
  by_cases h : j.val < 8
  · have := packBytes_getLsbD (storeBytes g) ⟨2 * n.val, by omega⟩ j.val h
    rw [storeBytes_byte] at this
    simp only [show 8 * (2 * n.val) + j.val = 16 * n.val + j.val by omega] at this
    rw [this]
    simp [outputByte, -BitVec.getLsbD_eq_getElem, BitVec.getLsbD_extractLsb', h]
  · have := packBytes_getLsbD (storeBytes g) ⟨2 * n.val + 1, by omega⟩ (j.val - 8) (by omega)
    rw [storeBytes_byte] at this
    simp only [show 8 * (2 * n.val + 1) + (j.val - 8) = 16 * n.val + j.val by omega] at this
    rw [this]
    simp [outputByte, -BitVec.getLsbD_eq_getElem, BitVec.getLsbD_extractLsb', show (2 * n.val + 1) % 2 = 1 by omega,
      show j.val - 8 < 8 by omega, show 8 + (j.val - 8) = j.val by omega, show (2 * n.val + 1) / 2 = n.val by omega]

/-- Bit `j` of word `n` of a loaded operand is bit `16n + j` of the operand (R110). -/
theorem operandWord_getLsbD (x : Nat) (n : Fin 16) (j : Nat) :
    (operandWord x n).getLsbD j = (decide (j < 16) && x.testBit (16 * n.val + j)) := by
  simp [operandWord, BitVec.getLsbD_ofNat]

end Sys2Proof.Machine
end

