-- ==== Sys2Proof/Laws/Rotation.lean ====
section
/-! SUPPORT. The bits of a rotation, on naturals (R100, R101) and on words. -/

namespace Sys2Proof.Machine

/-- R100 by bit position: bit `i` of the result is bit `i - k` of the input when `k ≤ i`, else bit `i + b - k`. -/
theorem rotL_testBit {b v : Nat} (a : Int) (hb : 0 < b) (hv : v < 2 ^ b) (i : Nat) :
    (rotL b v a).testBit i =
      (decide (i < b) && if (a % b).toNat ≤ i then v.testBit (i - (a % b).toNat) else v.testBit (i + b - (a % b).toNat)) := by
  have hb' : (b : Int) ≠ 0 := by omega
  have h0 := Int.emod_nonneg a hb'
  have h1 := Int.emod_lt_of_pos a (show (0 : Int) < b by omega)
  generalize hk : (a % (b : Int)).toNat = k
  have hkb : k < b := by omega
  have hlow : v >>> (b - k) < 2 ^ k := by
    rw [Nat.shiftRight_eq_div_pow]
    apply Nat.div_lt_of_lt_mul
    rwa [← Nat.pow_add, Nat.sub_add_cancel (by omega)]
  have hhi : (v <<< k) % 2 ^ b = 2 ^ k * (v % 2 ^ (b - k)) := by
    rw [Nat.shiftLeft_eq, Nat.mul_comm v, ← Nat.mul_mod_mul_left, ← Nat.pow_add, Nat.add_sub_cancel' (by omega)]
  have hor : rotL b v a = (v <<< k) % 2 ^ b ||| v >>> (b - k) := by
    simp only [rotL, hk, hhi]
    exact Nat.two_pow_add_eq_or_of_lt hlow _
  rw [hor]
  simp only [Nat.testBit_or, Nat.testBit_mod_two_pow, Nat.testBit_shiftLeft, Nat.testBit_shiftRight]
  have hhigh : ∀ j, b ≤ j → v.testBit j = false := fun j hj =>
    Nat.testBit_lt_two_pow (lt_of_lt_of_le hv (Nat.pow_le_pow_right (by omega) hj))
  by_cases hi : i < b
  · by_cases hki : k ≤ i
    · simp [hi, hki, hhigh (b - k + i) (by omega)]
    · simp [hi, hki, show b - k + i = i + b - k by omega]
  · simp [hi, hhigh (b - k + i) (by omega)]

/-- A rotation stays in the width (R102, R11). -/
theorem rotL_lt {b v : Nat} (a : Int) (hb : 0 < b) (hv : v < 2 ^ b) : rotL b v a < 2 ^ b := by
  apply Nat.lt_pow_two_of_testBit
  intro i hi
  rw [rotL_testBit a hb hv]
  simp [show ¬ i < b by omega]

/-- The bits of a word rotated left, by the amount reduced mod 16 (R100, R104). -/
theorem rotLeft_getLsbD (v : Word) (a i : Nat) :
    (rotLeft v a).getLsbD i =
      (decide (i < 16) && if a % 16 ≤ i then v.getLsbD (i - a % 16) else v.getLsbD (i + 16 - a % 16)) := by
  have h : ((a : Int) % (16 : Nat)).toNat = a % 16 := by omega
  simp only [rotLeft, BitVec.getLsbD_ofNat, rotL_testBit (a : Int) (by decide : 0 < 16) v.isLt, h]
  by_cases hi : i < 16 <;> simp [hi, BitVec.testBit_toNat]

/-- A right rotation by at most 16 is the left rotation by the rest (R101, R104). -/
theorem rotRight_eq_rotLeft (v : Word) {a : Nat} (h : a ≤ 16) : rotRight v a = rotLeft v (16 - a) := by
  simp only [rotRight, rotR, rotLeft]
  congr 2
  omega

/-- The bits of a word rotated right by at most 16 (R101). -/
theorem rotRight_getLsbD (v : Word) {a : Nat} (h : a < 16) (i : Nat) :
    (rotRight v a).getLsbD i = (decide (i < 16) && v.getLsbD ((i + a) % 16)) := by
  rw [rotRight_eq_rotLeft v (by omega), rotLeft_getLsbD]
  by_cases hi : i < 16
  · by_cases ha : a = 0
    · subst ha; simp [hi, Nat.mod_eq_of_lt hi]
    · have : (16 - a) % 16 = 16 - a := by omega
      rw [this]
      by_cases h2 : 16 - a ≤ i
      · simp [hi, h2, show (i + a) % 16 = i - (16 - a) by omega]
      · simp [hi, h2, show (i + a) % 16 = i + 16 - (16 - a) by omega]
  · simp [hi]

/-- A left rotation depends on its amount mod 16 only (R100). -/
theorem rotLeft_mod (v : Word) (a : Nat) : rotLeft v (a % 16) = rotLeft v a := by
  apply BitVec.eq_of_getLsbD_eq
  intro i _
  simp [rotLeft_getLsbD]

/-- Rotation commutes with XOR (R102). -/
theorem rotLeft_xor (u v : Word) (a : Nat) : rotLeft (u ^^^ v) a = rotLeft u a ^^^ rotLeft v a := by
  apply BitVec.eq_of_getLsbD_eq
  intro i _
  simp only [rotLeft_getLsbD, BitVec.getLsbD_xor]
  split <;> simp [Bool.and_xor_distrib_left]

@[simp] theorem rotLeft_zero_word (a : Nat) : rotLeft 0 a = 0 := by
  apply BitVec.eq_of_getLsbD_eq
  intro i _
  simp [rotLeft_getLsbD]

/-- Rotating right then left by the same amount gives the word back (R102). -/
theorem rotLeft_rotRight (v : Word) {a : Nat} (h : a < 16) : rotLeft (rotRight v a) a = v := by
  apply BitVec.eq_of_getLsbD_eq
  intro i hi
  rw [rotLeft_getLsbD, rotRight_getLsbD v h, rotRight_getLsbD v h, Nat.mod_eq_of_lt h]
  by_cases h2 : a ≤ i
  · rw [show i - a + a = i by omega]
    simp [hi, h2, show i - a < 16 by omega, Nat.mod_eq_of_lt hi]
  · simp [hi, h2, show i + 16 - a < 16 by omega, show (i + 16 - a + a) % 16 = i by omega]

/-- Rotating left then right by the same amount gives the word back (R102). -/
theorem rotRight_rotLeft (v : Word) {a : Nat} (h : a < 16) : rotRight (rotLeft v a) a = v := by
  apply BitVec.eq_of_getLsbD_eq
  intro i hi
  rw [rotRight_getLsbD _ h, rotLeft_getLsbD, Nat.mod_eq_of_lt h]
  by_cases h2 : a ≤ (i + a) % 16
  · simp [hi, h2, show (i + a) % 16 < 16 by omega, show (i + a) % 16 - a = i by omega]
  · simp [hi, h2, show (i + a) % 16 < 16 by omega, show (i + a) % 16 + 16 - a = i by omega]

theorem shiftAmount_lt (P : Params) (i : BitVec 4) (n : Fin 16) : shiftAmount P i n < 16 :=
  (P.rot (parityOf i) (rowOf n)).isLt

/-- The parity that selects the table is `i mod 2` (R77, R140). -/
theorem parityOf_eq (i : BitVec 4) : parityOf i = if i.toNat % 2 = 0 then 0 else 1 := by
  revert i; decide

end Sys2Proof.Machine
end

