-- ==== Sys2Proof/Laws/Layers.lean ====
section
/-! SUPPORT. One law per layer function, from which the layers' own laws follow. -/

namespace Sys2Proof.Machine

/-- A bit of a conditional XOR over a list of words is the parity of the words taken that have it set. -/
theorem foldl_xor_getLsbD (l : List (Fin 16)) (f : Fin 16 → Bool) (v : Fin 16 → Word) (acc : Word) (z : Nat) :
    (l.foldl (fun acc k => if f k then acc ^^^ v k else acc) acc).getLsbD z =
      (acc.getLsbD z ^^ decide (Odd (l.filter (fun k => f k && (v k).getLsbD z)).length)) := by
  induction l generalizing acc with
  | nil => simp
  | cons k l ih =>
    rw [List.foldl_cons, ih, List.filter_cons]
    cases hf : f k <;> cases hv : (v k).getLsbD z <;> simp [hv, -BitVec.getLsbD_eq_getElem, Nat.odd_add_one]
    simp only [← Nat.not_odd_iff_even, decide_not]
    generalize decide (Odd (l.filter (fun k => f k && (v k).getLsbD z)).length) = b
    cases acc.getLsbD z <;> cases b <;> rfl

/-- The slice view of MixSlices (R132): bit `z` of output word `n` is the sum over GF(2) of `M[n][k] * u_z[k]`. -/
theorem mixWord_getLsbD (P : Params) (g : Grid) (n : Fin 16) (z : Nat) : (mixWord P g n).getLsbD z =
    decide (Odd (flatIndices.filter fun k => P.m n k && (g[k]).getLsbD z).length) := by
  rw [mixWord, foldl_xor_getLsbD flatIndices (P.m n) (fun k => g[k])]
  simp

/-- An output word of MixSlices as one XOR over all words, the words not taken replaced by 0 (R130). -/
theorem mixWord_eq_foldl (P : Params) (g : Grid) (n : Fin 16) :
    mixWord P g n = flatIndices.foldl (fun acc k => acc ^^^ (if P.m n k then g[k] else 0)) 0 := by
  rw [mixWord]
  congr 1
  funext acc k
  split <;> simp

/-- Folding the XOR of two families is the XOR of the folds. -/
theorem foldl_xor_xor (l : List (Fin 16)) (u v : Fin 16 → Word) (a b : Word) :
    l.foldl (fun acc k => acc ^^^ (u k ^^^ v k)) (a ^^^ b) =
      l.foldl (fun acc k => acc ^^^ u k) a ^^^ l.foldl (fun acc k => acc ^^^ v k) b := by
  induction l generalizing a b with
  | nil => rfl
  | cons k l ih =>
    simp only [List.foldl_cons]
    rw [← ih]
    congr 1
    ac_rfl

/-- `C1` or `C2` by the column (R150: "even exactly when the column `c` is even"). -/
theorem constantOf_flat (P : Params) (r c : Fin 4) : constantOf P (flat r c) = if c = 0 ∨ c = 2 then P.c1 else P.c2 := by
  have : ((flat r c).val % 2 = 0) ↔ (c = 0 ∨ c = 2) := by
    simp only [flat]
    fin_cases c <;> simp <;> omega
  simp only [constantOf, this]

/-- The round constant depends on `i + n` mod 16 only, beside the constant's choice (R150). -/
theorem roundConstant_mod (P : Params) (i : BitVec 4) (n : Fin 16) :
    roundConstant P i n = rotLeft (constantOf P n) ((i.toNat + n.val) % 16) :=
  (rotLeft_mod _ _).symm

end Sys2Proof.Machine
end

