-- ==== Sys2Proof/Laws/PerInstr.lean ====
section
/-! SUPPORT. Families of statements made one constructor at a time. -/

namespace Sys2Proof.Laws.EncodeFits

/-- On a bus of any width a well-formed operation's word has no bit above those of its format (R72, R73). -/
def Statement (i : Instr) : Prop := ∀ dinW : Nat, i.wellFormed dinW = true → encode dinW i < 2 ^ encodedBits dinW i

/-- A UOP word of one of the eight phases fits seven bits. -/
theorem uopWord_lt {ph : Nat} (h : ph < 8) (rnd : BitVec 4) : uopWord ph rnd.toNat < 2 ^ 7 := by
  have := rnd.isLt
  simp only [uopWord, Nat.shiftLeft_eq]
  omega

theorem configure (cfg : Nat) : Statement (.configure cfg) := by
  intro dinW h
  simp only [Instr.wellFormed, decide_eq_true_eq] at h
  simp only [encode, encodedBits, Nat.pow_succ]
  omega

theorem permute (x : Nat) : Statement (.permute x) := by
  intro dinW h
  simp only [Instr.wellFormed, decide_eq_true_eq] at h
  simp only [encode, encodedBits, Nat.pow_succ, Nat.shiftLeft_eq]
  omega

theorem load (rnd : BitVec 4) : Statement (.load rnd) := fun _ _ => uopWord_lt (by decide) rnd
theorem subrows (rnd : BitVec 4) : Statement (.subrows rnd) := fun _ _ => uopWord_lt (by decide) rnd
theorem mixslices (rnd : BitVec 4) : Statement (.mixslices rnd) := fun _ _ => uopWord_lt (by decide) rnd
theorem shiftplanes (rnd : BitVec 4) : Statement (.shiftplanes rnd) := fun _ _ => uopWord_lt (by decide) rnd
theorem addconstant (rnd : BitVec 4) : Statement (.addconstant rnd) := fun _ _ => uopWord_lt (by decide) rnd
theorem store (rnd : BitVec 4) : Statement (.store rnd) := fun _ _ => uopWord_lt (by decide) rnd

end Sys2Proof.Laws.EncodeFits
end

