-- ==== Sys2Proof/Tests/Slice0.lean ====
section
/-! SUPPORT. The model's own tests: ill-formed terms refused, words written out from the spec's formats, vectors of
spec/95_test_vectors.md, and for every statement with hypotheses a state and operands that meet them. -/

namespace Sys2Proof.Tests

open Sys2Proof.Machine

/-! ## Helpers -/

/-- A grid from its sixteen words, `G[0]` first. -/
def words (l : List Nat) : Grid := Vector.ofFn fun n => BitVec.ofNat 16 (l.getD n.val 0)

/-- `PARAMS_T0` of spec/95_test_vectors.md. -/
def T0 : Params := ⟨0, 0, fun _ _ => 0, fun n k => decide (n = k), 0, 256⟩

/-- `PARAMS_T1` of spec/95_test_vectors.md, its matrix given by the masks printed there. -/
def T1 : Params where
  c1 := 0x0001
  c2 := 0x8000
  rot p r := BitVec.ofNat 4 (if p = 0 then r.val else 4 * r.val)
  m := matrixOfMasks (words [0x0013, 0x0026, 0x004C, 0x0098, 0x0130, 0x0260, 0x04C0, 0x0980, 0x1300, 0x2600, 0x4C00, 0x9800,
    0x3001, 0x6002, 0xC004, 0x8009])
  dinExtra := 0
  cfgOk := 256

/-- `X0` of spec/95_test_vectors.md. -/
def X0 : Nat := 0x1F1E1D1C1B1A191817161514131211100F0E0D0C0B0A09080706050403020100

/-- `A = Load(X0)` of spec/95_test_vectors.md. -/
def A : Grid := words [0x0100, 0x0302, 0x0504, 0x0706, 0x0908, 0x0B0A, 0x0D0C, 0x0F0E, 0x1110, 0x1312, 0x1514, 0x1716, 0x1918,
  0x1B1A, 0x1D1C, 0x1F1E]

/-- A machine whose engine is at `(ph, rnd)`, configured, with grid `g` and no response, under the input samples `ps`. -/
def at_ (ph : BitVec 3) (rnd : BitVec 4) (g : Grid) (ps : List PortSample) : State :=
  { State.reset with
    engine := { State.reset.engine with ph := ph, rnd := rnd, g := g, configured := true }, inputs := ps }

/-- The same idle machine with a response `(st, d)` waiting. -/
def waiting (st : BitVec 2) (d : BitVec 256) (ps : List PortSample) : State :=
  { State.reset with
    engine := { State.reset.engine with configured := true, rspValid := true, rspStatus := st, rspData := d }, inputs := ps }

/-- A sample that presents a command. -/
def cmd (op : BitVec 1) (data : Nat) : PortSample := ⟨false, true, op, data, false⟩

/-- A sample that takes a response. -/
def ready : PortSample := ⟨false, false, 0, 0, true⟩

/-- A sample that asserts reset, and presents a command and a take with it. -/
def resetting : PortSample := ⟨true, true, 1, 5, true⟩

/-- Some predicate of the next state an outcome holds. -/
def next? (o : Host.Outcome State Fault Refusal) (q : State → Bool) : Bool :=
  match o with
  | .next t => q t
  | .fault _ => false
  | .refused _ => false

/-! ## WellFormed refuses what does not fit the bus -/

theorem test_wellFormed_refuses_wide_configure : Instr.wellFormed 256 (.configure (2 ^ 256)) = false := by decide
theorem test_wellFormed_refuses_wide_permute : Instr.wellFormed 256 (.permute (2 ^ 256)) = false := by decide
theorem test_wellFormed_takes_wide_on_wide_bus : Instr.wellFormed 257 (.permute (2 ^ 256)) = true := by decide

/-! ## Decoding: words written out bit by bit from R72, R73 and R74 -/

theorem test_decode_configure : decodeTableWord 264 0x100 = some (.configure 256) := by decide
theorem test_decode_permute :
    decodeTableWord 257 0x10000000000000000000000000000000000000000000000000000000000000001 = some (.permute 1) := by decide
theorem test_decode_load : decodeTableWord 7 0b0000000 = some (.load 0) := by decide
theorem test_decode_subrows : decodeTableWord 7 0b0010101 = some (.subrows 5) := by decide
theorem test_decode_mixslices : decodeTableWord 7 0b0101000 = some (.mixslices 8) := by decide
theorem test_decode_shiftplanes : decodeTableWord 8 0b0110001 = some (.shiftplanes 1) := by decide
theorem test_decode_addconstant : decodeTableWord 8 0b1001110 = some (.addconstant 14) := by decide
theorem test_decode_store : decodeTableWord 8 0b1010000 = some (.store 0) := by decide
theorem test_decode_reserved_6 : decodeWord 256 7 0b1100000 = .error .reservedPhase := by decide
theorem test_decode_reserved_7 : decodeWord 256 7 0b1111111 = .error .reservedPhase := by decide
theorem test_decode_stray_bit : decodeWord 256 8 0b10010000 = .error .strayBits := by decide
theorem test_decode_bad_length : decodeWord 256 16 0 = .error .badLength := by decide
/-- R72 with `DIN_W = 257`: the operation bit is bit 257, so bit 256 belongs to the operand. -/
theorem test_decode_wide_bus : decodeWord 257 258 (2 ^ 256) = .ok (.configure (2 ^ 256)) := by decide

/-! ## Vectors of spec/95_test_vectors.md -/

/-- B1. -/
theorem test_rotations : rotL 16 0x8001 1 = 0x0003 ∧ rotL 16 0x1234 20 = 0x2341 ∧ rotL 16 0x1234 30 = 0x048D ∧
    rotL 16 0x1234 (-1) = 0x091A ∧ rotL 8 0x81 9 = 0x03 ∧ rotL 1 1 5 = 1 ∧ rotR 16 0x0003 1 = 0x8001 ∧
    rotR 16 0x1234 4 = 0x4123 ∧ rotR 16 0x1234 0 = 0x1234 ∧ rotR 16 0x1234 17 = 0x091A := by decide

/-- B2, `X0` through LOAD. -/
theorem test_load : next? (exec (.load 9) (at_ 0 7 (words []) [cmd 1 X0]))
    (fun t => t.engine.g == A && t.engine.ph == 1 && t.engine.rnd == 0) = true := by decide

/-- B2, `A` through STORE: byte `m` of the response is `m`. -/
theorem test_store : next? (exec (.store 0) (at_ 5 0 A []))
    (fun t => t.engine.rspData == BitVec.ofNat 256 X0 && t.engine.rspStatus == 0 && t.engine.rspValid && t.engine.ph == 0) =
    true := by decide

/-- B2: `G[0] = 0x1234` gives bytes 34, 12. -/
theorem test_store_low_byte_first : (storeBytes (words [0x1234]))[0] = 0x34 ∧ (storeBytes (words [0x1234]))[1] = 0x12 := by
  decide

/-- B3: lane `z` holds input value `z`, all sixteen entries of the S-box at once. -/
theorem test_subrows_all_lanes : subRow ⟨0xFF00, 0xF0F0, 0xCCCC, 0xAAAA⟩ = ⟨0x3CCC, 0x6A6A, 0xD748, 0xB2B8⟩ := by decide

/-- B3, `A`. -/
theorem test_subrows : next? (exec (.subrows 3) (at_ 1 3 A []))
    (fun t => t.engine.g == words [0x0404, 0x0606, 0x0504, 0x0706, 0x0404, 0x0606, 0x0D0C, 0x0F0E, 0x0404, 0x0606, 0x1514,
      0x1716, 0x0404, 0x0606, 0x1D1C, 0x1F1E] && t.engine.ph == 2 && t.engine.rnd == 3) = true := by decide

/-- B4. -/
theorem test_mixslices : mixSlices T1 A = words [0x0B0A, 0x0D0C, 0x0F0E, 0x0100, 0x1312, 0x1514, 0x1716, 0x0908, 0x1B1A, 0x1D1C,
    0x1F1E, 0x1110, 0x0302, 0x0504, 0x0706, 0x1918] := by decide

/-- B4: column 3 of the matrix. -/
theorem test_mixslices_column : mixSlices T1 (words [0, 0, 0, 0xFFFF]) = words [0, 0, 0xFFFF, 0xFFFF, 0, 0, 0, 0, 0, 0, 0, 0,
    0, 0, 0, 0xFFFF] := by decide

/-- B5, an even round. -/
theorem test_shiftplanes_even : shiftPlanes T1 14 A = words [0x0100, 0x0302, 0x0504, 0x0706, 0x0484, 0x0585, 0x0686, 0x0787,
    0x0444, 0x84C4, 0x0545, 0x85C5, 0x0323, 0x4363, 0x83A3, 0xC3E3] := by decide

/-- B5, an odd round. -/
theorem test_shiftplanes_odd : shiftPlanes T1 1 A = words [0x0100, 0x0302, 0x0504, 0x0706, 0x8090, 0xA0B0, 0xC0D0, 0xE0F0,
    0x1011, 0x1213, 0x1415, 0x1617, 0x9181, 0xB1A1, 0xD1C1, 0xF1E1] := by decide

/-- B6: the constants of round 15, and round 7 on `A`. -/
theorem test_addconstant : addConstant T1 15 (words []) = words [0x8000, 0x8000, 0x0002, 0x0002, 0x0008, 0x0008, 0x0020, 0x0020,
      0x0080, 0x0080, 0x0200, 0x0200, 0x0800, 0x0800, 0x2000, 0x2000] ∧
    addConstant T1 7 A = words [0x0180, 0x0382, 0x0704, 0x0506, 0x0108, 0x030A, 0x2D0C, 0x2F0E, 0x9110, 0x9312, 0x1516, 0x1714,
      0x1910, 0x1B12, 0x1D3C, 0x1F3E] := by decide

/-- P3: the two rounds of `X0`. -/
theorem test_second_round : roundGrid T1 1 (roundGrid T1 0 A) = words [0x0BDC, 0x0AC9, 0x08D1, 0x0B82, 0x384D, 0x1025, 0x28E4,
    0xB829, 0xE294, 0xA0C7, 0x2C54, 0xE8C4, 0xA4C5, 0x8CB9, 0x46C0, 0xC81D] := by decide

/-- B7: the whole permutation of 1, the bytes of the vector in little-endian order. -/
theorem test_permute_one : packBytes (permuteBytes T1 1) =
    0x85A0983E964C0E19A05E54B483DAB379E69E8F0C6391AD9AE3F60188B8F87DB0 := by decide +kernel

/-- R170: the round counter after ADDCONSTANT, in the last round and before it. -/
theorem test_addconstant_transfer :
    next? (exec (.addconstant 15) (at_ 4 15 A [])) (fun t => t.engine.ph == 5 && t.engine.rnd == 0) = true ∧
      next? (exec (.addconstant 14) (at_ 4 14 A [])) (fun t => t.engine.ph == 1 && t.engine.rnd == 15) = true := by decide

/-- P2: PERMUTE before CONFIGURE. -/
theorem test_permute_unconfigured : next? (step { State.reset with inputs := [cmd 1 5] })
    (fun t => t.engine.rspValid && t.engine.rspStatus == 1 && t.engine.rspData == 0 && t.engine.ph == 0) = true := by decide

/-- P2: an operand of 257 bits. -/
theorem test_permute_out_of_range : next? (step (at_ 0 0 A [cmd 1 (2 ^ 256)]))
    (fun t => t.engine.rspValid && t.engine.rspStatus == 2 && t.engine.rspData == 0 && t.engine.g == A) = true := by decide

/-- R161: CONFIGURE with the supported value, whatever it is. -/
theorem test_configure_supported : next? (step { State.reset with inputs := [cmd 0 Config.params.cfgOk.toNat] })
    (fun t => t.engine.rspValid && t.engine.rspStatus == 0 && t.engine.configured) = true := by
  rw [step_accept (by decide)]
  simp [decodeCmd, cmd, State.port, exec_configure, State.reset, Engine.cmdReady, State.configure_supported, next?]

/-- R161: any other value de-configures. -/
theorem test_configure_unsupported : next? (step (at_ 0 0 A [cmd 0 (Config.params.cfgOk.toNat + 1)]))
    (fun t => t.engine.rspValid && t.engine.rspStatus == 1 && !t.engine.configured) = true := by
  rw [step_accept (by decide)]
  simp [decodeCmd, cmd, at_, State.port, exec_configure, State.reset, Engine.cmdReady, State.configure_unsupported, next?]

/-! ## A placed table word runs in the very next step, from reset -/

theorem test_placed_uops_run :
    next? (step (State.reset.withFetchWord 8 0b0000000)) (fun t => t.engine.ph == 1 && t.engine.rnd == 0) = true ∧
      next? (step (State.reset.withFetchWord 8 0b0010011)) (fun t => t.engine.ph == 2 && t.engine.rnd == 3) = true ∧
      next? (step (State.reset.withFetchWord 8 0b0100011)) (fun t => t.engine.ph == 3 && t.engine.rnd == 3) = true ∧
      next? (step (State.reset.withFetchWord 8 0b0110011)) (fun t => t.engine.ph == 4 && t.engine.rnd == 3) = true ∧
      next? (step (State.reset.withFetchWord 8 0b1000011)) (fun t => t.engine.ph == 1 && t.engine.rnd == 4) = true ∧
      next? (step (State.reset.withFetchWord 8 0b1010000)) (fun t => t.engine.ph == 0 && t.engine.rspValid) = true := by decide

theorem test_placed_commands_run :
    next? (step (State.reset.withFetchWord 264 0x100)) (fun t => t.engine.rspValid && t.engine.rspData == 0) = true ∧
      next? (step (State.reset.withFetchWord 264 (2 ^ 256 + 5))) (fun t => t.engine.rspValid && t.engine.rspStatus == 1) =
        true := by
  refine ⟨?_, by decide⟩
  rw [step_accept (by decide)]
  by_cases h : 256 = Config.params.cfgOk.toNat
  · simp [State.withFetchWord, State.placeWord, State.placeCmd, PortSample.forCmd, wholeBytes, decodeCmd, exec_configure,
      Engine.cmdReady, State.configure_supported _ h, next?]
  · simp [State.withFetchWord, State.placeWord, State.placeCmd, PortSample.forCmd, wholeBytes, decodeCmd, exec_configure,
      Engine.cmdReady, State.configure_unsupported _ h, next?]

/-! ## Witnesses: for each statement with hypotheses, a state and operands that meet them, clause by clause

A statement whose hypotheses are those of an earlier one is named there. -/

theorem witness_EncodeDecodeRoundTrip :
    (256 ≤ 256 ∧ Instr.wellFormed 256 (.permute (2 ^ 256 - 1)) = true) ∧
      (256 ≤ 300 ∧ Instr.wellFormed 300 (.configure (2 ^ 300 - 1)) = true) ∧ Instr.wellFormed 256 (.store 15) = true := by decide

theorem witness_DecodedWordIsItsEncoding :
    decodeWord 256 264 (2 ^ 257 - 1) = .ok (.permute (2 ^ 256 - 1)) ∧ decodeWord 256 7 0b1011111 = .ok (.store 15) := by decide

theorem witness_OnlyReservedPhasesAreRejected :
    (0b1101111 < 2 ^ 7 ∧ (0b1101111 / 2 ^ 4 = 6 ∨ 0b1101111 / 2 ^ 4 = 7)) ∧
      (0b1011111 < 2 ^ 7 ∧ ¬(0b1011111 / 2 ^ 4 = 6 ∨ 0b1011111 / 2 ^ 4 = 7)) ∧ 256 ≤ 256 ∧ 2 ^ 257 - 1 < 2 ^ (256 + 1) := by decide

/-- Both clauses. -/
theorem witness_StepRunsDecodedOperation :
    ((at_ 0 0 A [cmd 1 X0]).accepts ∧ ∃ t, exec (decodeCmd 1 X0) (at_ 0 0 A [cmd 1 X0]) = .next t) ∧
      (at_ 5 0 A []).port.rst = false ∧ (at_ 5 0 A []).engine.ph ≠ 0 ∧ ¬(at_ 5 0 A []).takes ∧
      decodeUop (at_ 5 0 A []).engine.ph (at_ 5 0 A []).engine.rnd = .ok (.store 0) ∧
      ∃ t, exec (.store 0) (at_ 5 0 A []) = .next t :=
  ⟨⟨by decide, exec_next _ _⟩, by decide, by decide, by decide, by decide, exec_next _ _⟩

/-- The common hypotheses in a state of each phase. -/
theorem witness_DecoderOfTheEdgeIsComplete :
    (∀ ph : BitVec 3, (at_ ph 15 A []).port.rst = false ∧ ((at_ ph 15 A []).engine.ph ≠ 0 → (at_ ph 15 A []).engine.rspValid = false)) ∧
      ((at_ 0 0 A [cmd 0 3]).accepts ∧ (at_ 0 0 A [cmd 0 3]).port.cmdOp = 0) ∧
      ((at_ 0 0 A [cmd 1 3]).accepts ∧ (at_ 0 0 A [cmd 1 3]).port.cmdOp = 1) ∧
      ((at_ 0 0 A []).engine.ph = 0 ∧ ¬(at_ 0 0 A []).accepts ∧ ¬(at_ 0 0 A []).takes) ∧
      ((waiting 0 7 [cmd 1 3]).engine.ph = 0 ∧ ¬(waiting 0 7 [cmd 1 3]).accepts ∧ ¬(waiting 0 7 [cmd 1 3]).takes) := by decide

theorem witness_StepFaultsExactlyOnReservedPhases :
    (at_ 6 0 A []).port.rst = false ∧ (at_ 6 0 A []).engine.ph = 6 ∧ (at_ 7 3 A []).engine.ph = 7 := by decide

/-- A reset in the middle of a call, and one that falls on a presented command and a take. -/
theorem witness_ResetEdgeResetsEveryState :
    (at_ 3 9 A [resetting]).port.rst = true ∧ (waiting 0 7 [resetting]).port.rst = true ∧
      (at_ 7 0 A [resetting]).port.rst = true := by decide

theorem witness_ResponseTakeReturnsThePair :
    (∀ p ∈ [ready, .quiet], (waiting 2 0 [p]).port.rst = false ∧ (waiting 2 0 [p]).engine.ph = 0 ∧
      (waiting 2 0 [p]).engine.rspValid = true) ∧
      (waiting 2 0 [ready]).port.rspReady = true ∧ (waiting 2 0 []).port.rspReady = false := by decide

theorem witness_UnacceptedCommandChangesNothing :
    (at_ 1 0 A []).engine.cmdReady = false ∧ (waiting 0 7 []).engine.cmdReady = false ∧
      (cmd 0 1).rst = (cmd 1 2).rst ∧ (cmd 0 1).rspReady = (cmd 1 2).rspReady := by decide

theorem witness_PlacedWordIsRunNext :
    decodeTableWord 7 0b0001001 = some (.load 9) ∧ decodeTableWord 257 (2 ^ 256 - 1) = some (.configure (2 ^ 256 - 1)) := by decide

/-- Both clauses: the supported value, and another. -/
theorem witness_ConfigureAnswersAtOnce :
    (at_ 0 0 A []).engine.ph = 0 ∧ (at_ 0 0 A []).engine.rspValid = false ∧
      Config.params.cfgOk.toNat = Config.params.cfgOk.toNat ∧ Config.params.cfgOk.toNat + 1 ≠ Config.params.cfgOk.toNat :=
  ⟨rfl, rfl, rfl, Nat.succ_ne_self _⟩

/-- The three clauses, at the bounds of the range. -/
theorem witness_PermuteChecksThenLoads :
    (State.reset.engine.ph = 0 ∧ State.reset.engine.rspValid = false ∧ State.reset.engine.configured = false) ∧
      ((at_ 0 0 A []).engine.ph = 0 ∧ (at_ 0 0 A []).engine.rspValid = false ∧ (at_ 0 0 A []).engine.configured = true) ∧
      2 ^ 256 ≤ 2 ^ 256 ∧ 2 ^ 256 - 1 < 2 ^ 256 := by decide

/-- The hypotheses also of MicroprogramHasSixtySixEntries and PermuteRespondsWithThePermutation: an accepted PERMUTE of the largest
operand, no reset ahead. -/
theorem witness_AcceptedPermutePerformsLoad :
    (at_ 0 0 A [cmd 1 (2 ^ 256 - 1)]).accepts ∧ (at_ 0 0 A [cmd 1 (2 ^ 256 - 1)]).port.cmdOp = 1 ∧
      (at_ 0 0 A [cmd 1 (2 ^ 256 - 1)]).engine.configured = true ∧
      (at_ 0 0 A [cmd 1 (2 ^ 256 - 1)]).port.cmdData < 2 ^ 256 ∧ (at_ 0 0 A [cmd 1 (2 ^ 256 - 1)]).noResetFor 66 := by decide

/-- The last hypothesis of PermuteRespondsWithThePermutation: the host takes the response at the 67th edge. -/
theorem witness_PermuteRespondsWithThePermutation :
    next? (runSteps 66 (at_ 0 0 A (cmd 1 1 :: List.replicate 65 .quiet ++ [ready]))) (fun t => decide t.takes) = true := by decide

/-- The hypotheses of RotateLeftMovesEveryBit, RotateRightMovesEveryBit and RotationLaws, at width 1 and at 16. -/
theorem witness_rotations : (0 < 1 ∧ 1 < 2 ^ 1) ∧ 0 < 16 ∧ 0xFFFF < 2 ^ 16 ∧ 0x8001 < 2 ^ 16 := by decide

/-- The hypothesis of StoreOfLoadIsLittleEndian, LoadAndStoreAreBijections and IdentityParametersPermuteToTheOperand. -/
theorem witness_operand : 2 ^ 256 - 1 < 2 ^ 256 := by decide

/-- The four clauses: an even and an odd index, and two cells with one amount. -/
theorem witness_RoundConstantLaws :
    (0 : Fin 16).val % 2 = 0 ∧ (15 : Fin 16).val % 2 = 1 ∧ (13 : BitVec 4).toNat + 2 = (15 : BitVec 4).toNat ∧
      (13 : Fin 16).val + 2 = (15 : Fin 16).val := by decide

theorem witness_IdentityParametersPermuteToTheOperand :
    T0.c1 = 0 ∧ T0.c2 = 0 ∧ (∀ p r, T0.rot p r = 0) ∧ ∀ n k, T0.m n k = decide (n = k) := by decide

/-- The seven clauses in the order of the statement; the first is met by `witness_AcceptedPermutePerformsLoad`. -/
theorem witness_ControlTransferTable :
    (∀ ph ∈ [1, 2, 3], (at_ ph 15 A []).port.rst = false ∧ (at_ ph 15 A []).engine.rspValid = false) ∧
      ((at_ 4 14 A []).port.rst = false ∧ (at_ 4 14 A []).engine.rspValid = false ∧ (at_ 4 14 A []).engine.rnd ≠ 15) ∧
      ((at_ 4 15 A []).port.rst = false ∧ (at_ 4 15 A []).engine.rspValid = false ∧ (at_ 4 15 A []).engine.rnd = 15) ∧
      ((at_ 5 0 A []).port.rst = false ∧ (at_ 5 0 A []).engine.ph = 5 ∧ (at_ 5 0 A []).engine.rnd = 0) ∧
      ((at_ 0 9 A [cmd 0 1]).accepts ∧ (at_ 0 9 A [cmd 0 1]).port.cmdOp = 0) ∧
      ((at_ 0 9 A [cmd 1 (2 ^ 256)]).accepts ∧ 2 ^ 256 ≤ (at_ 0 9 A [cmd 1 (2 ^ 256)]).port.cmdData) ∧
      ((waiting 0 7 [ready]).takes ∧ (waiting 0 7 [ready]).engine.ph = 0) := by decide

/-- The first, the last and a middle entry of the microprogram. -/
theorem witness_TerminationInAFixedNumberOfSteps :
    ∀ s ∈ [at_ 1 0 A [], at_ 4 15 A [ready], at_ 5 0 A [cmd 1 3]],
      1 ≤ s.engine.ph.toNat ∧ s.engine.ph.toNat ≤ 5 ∧ s.engine.rspValid = false ∧ s.noResetFor 65 := by decide

/-- Beside the state of `witness_AcceptedPermutePerformsLoad`, one that differs in `G`, in `RND` and in the ports. -/
theorem witness_PermuteIsDeterministic :
    let t := at_ 0 9 (words []) [⟨false, true, 1, 2 ^ 256 - 1, true⟩, ready]
    t.accepts ∧ t.port.cmdOp = 1 ∧ t.engine.configured = true ∧ t.port.cmdData = 2 ^ 256 - 1 ∧ t.noResetFor 66 := by decide

/-- Both premises and all clauses: a rejected PERMUTE, its response held for one edge and then taken, a reset within the 66 edges and
no command afterwards; and a whole call, its response taken at the 67th edge. -/
theorem witness_EveryAcceptedCommandIsAnsweredOnce :
    let s := at_ 0 0 A [cmd 1 (2 ^ 256), .quiet, ready, .quiet, ⟨true, false, 0, 0, true⟩]
    let c := at_ 0 0 A (cmd 1 1 :: List.replicate 65 .quiet ++ [ready])
    (s.accepts ∧ s.answersAtOnce ∧
      next? (runSteps 1 s) (fun t => t.engine.rspValid &&
        decide (∀ p ∈ t.inputs.take 1, p.rst = false ∧ p.rspReady = false)) = true ∧
      next? (runSteps 2 s) (fun w => decide w.takes && decide (∀ p ∈ w.inputs.tail.take 9, p.cmdValid = false)) = true) ∧
    (c.accepts ∧ c.startsCall ∧ c.noResetFor 66 ∧
      next? (runSteps 66 c) (fun t => decide t.takes && decide (∀ p ∈ t.inputs.tail.take 9, p.cmdValid = false)) = true) := by
  decide

/-- Reset in the middle of a call, another reset later, no command meanwhile. -/
theorem witness_ResetAbandonsTheCall :
    (at_ 3 9 A [resetting, .quiet, ⟨true, false, 0, 0, true⟩, ready]).port.rst = true ∧
      ∀ p ∈ (at_ 3 9 A [resetting, .quiet, ⟨true, false, 0, 0, true⟩, ready]).inputs.tail.take 9, p.cmdValid = false := by decide

/-- The hypotheses of StepKeepsTheInvariant and EngineNeverStopsUnderTheInvariant: in a call, at its end, and with an error
waiting to be taken. -/
theorem witness_StepKeepsTheInvariant :
    ∀ s ∈ [at_ 4 15 A [], at_ 5 0 A [cmd 1 3], waiting 2 0 [ready]], s.Inv ∧ next? (step s) (fun _ => true) = true := by decide

/-- Every clause: the step that begins a call; and a call of `X0` at its first entry, at the last ADDCONSTANT and at STORE, where
the invariant of calls holds, `G` is what the operand gives, and the machine steps. -/
theorem witness_StepKeepsTheCallInvariant :
    ((at_ 0 9 A [cmd 1 X0]).startsCall ∧ next? (step (at_ 0 9 A [cmd 1 X0])) (fun _ => true) = true) ∧
      ∀ q ∈ [((1 : BitVec 3), (0 : BitVec 4)), (4, 15), (5, 0)],
        let s := at_ q.1 q.2 (gridAt Config.params q.1 q.2 X0) []
        s.CallInv ∧ s.Inv ∧ s.engine.ph ≠ 0 ∧ s.port.rst = false ∧
          s.engine.g = gridAt Config.params s.engine.ph s.engine.rnd X0 ∧ next? (step s) (fun _ => true) = true := by
  refine ⟨by decide, fun q hq => ?_⟩
  have hc : ∀ (ph : BitVec 3) (rnd : BitVec 4), (at_ ph rnd (gridAt Config.params ph rnd X0) []).Inv →
      (at_ ph rnd (gridAt Config.params ph rnd X0) []).CallInv := fun ph rnd hi =>
    ⟨hi, fun _ => ⟨X0, by decide, rfl⟩, fun h => absurd h (by simp [at_, State.reset]), fun _ h => absurd h List.not_mem_nil⟩
  simp only [List.mem_cons, List.not_mem_nil, or_false] at hq
  rcases hq with rfl | rfl | rfl <;> exact ⟨hc _ _ (by decide), by decide, by decide, by decide, rfl, by decide⟩

/-- Each clause's change happens: `G` (in a call and by PERMUTE), `RND`, `PH` (by PERMUTE and at STORE), the response registers (by
STORE, by a rejected PERMUTE and by a take), `taken`; that of `CONFIGURED` is `test_configure_supported`. -/
theorem witness_RegistersAreWrittenOnlyByTheirWriters :
    next? (step (at_ 1 0 A [])) (fun t => t.engine.g != A) = true ∧
      next? (step (at_ 0 0 A [cmd 1 1])) (fun t => t.engine.g != A) = true ∧
      next? (step (at_ 4 3 A [])) (fun t => t.engine.rnd != 3) = true ∧
      next? (step (at_ 0 9 A [cmd 1 1])) (fun t => t.engine.rnd != 9 && t.engine.ph != 0) = true ∧
      next? (step (at_ 5 0 A [])) (fun t => t.engine.rspValid && t.engine.rspData != 0 && t.engine.ph != 5) = true ∧
      next? (step (at_ 0 0 A [cmd 1 (2 ^ 256)])) (fun t => t.engine.rspValid && t.engine.rspStatus != 0) = true ∧
      next? (step (waiting 2 0 [ready])) (fun t => !t.engine.rspValid && t.taken == [⟨2, 0⟩]) = true := by decide

/-- Two idle engines that differ in everything unspecified, and run on. -/
theorem witness_UnspecifiedStateHasNoInfluence :
    let s := at_ 0 0 A [cmd 1 7]
    let t := { s with engine := { s.engine with g := words [], rnd := 9, rspStatus := 3, rspData := 5 }, freeCount := 8 }
    s.SameForHost t ∧ next? (runSteps 3 s) (fun _ => true) = true := by
  refine ⟨⟨rfl, rfl, rfl, fun h => absurd rfl h, fun h => absurd h (by decide), rfl, rfl⟩, by decide⟩

/-- Two engines in a call that differ in `G` and the response, under operands that differ, in range and out of it. -/
theorem witness_SequencingIsIndependentOfData :
    let s := at_ 2 5 A [.quiet, cmd 1 7, cmd 1 (2 ^ 256)]
    let t := { at_ 2 5 (words []) [.quiet, cmd 1 8, cmd 1 (2 ^ 300 + 1)] with taken := [⟨1, 0⟩] }
    s.SameControl t ∧ next? (runSteps 4 s) (fun _ => true) = true := by
  refine ⟨⟨rfl, rfl, rfl, rfl, ?_⟩, by decide⟩
  refine .cons ?_ (.cons ?_ (.cons ?_ .nil)) <;> unfold PortSample.SameControl <;> decide

end Sys2Proof.Tests
end

section
/-! Rotations by any width and amount: the bits of `rotL` and `rotR` by residues of positions (R100, R101), the laws that follow
from them (R102), and the family's obligations. -/

namespace Sys2Proof.Machine

/-- A residue of positions names a bit position of the width. -/
theorem toNat_emod_lt {b : Nat} (hb : 0 < b) (x : Int) : (x % (b : Int)).toNat < b := by
  have h := Int.emod_lt_of_pos x (show (0 : Int) < b by omega)
  omega

/-- A residue of positions read back as an integer is itself. -/
theorem natCast_toNat_emod {b : Nat} (hb : 0 < b) (x : Int) : (((x % (b : Int)).toNat : Nat) : Int) = x % b :=
  Int.toNat_of_nonneg (Int.emod_nonneg x (by omega))

/-- A position below the width is its own residue. -/
theorem toNat_natCast_emod {b i : Nat} (hi : i < b) : ((i : Int) % b).toNat = i := by
  rw [Int.emod_eq_of_lt (by omega) (by omega), Int.toNat_natCast]

/-- R100 read backwards: bit `i` of the result is bit `(i - a) mod b` of the input. -/
theorem rotL_testBit_emod {b v : Nat} (a : Int) (hb : 0 < b) (hv : v < 2 ^ b) (i : Nat) :
    (rotL b v a).testBit i = (decide (i < b) && v.testBit (((i : Int) - a) % b).toNat) := by
  rw [rotL_testBit a hb hv]
  by_cases hi : i < b
  · have hk := toNat_emod_lt hb a
    have hpos : ((i : Int) - a) % b = (i - (a % (b : Int)).toNat) % b := by
      rw [natCast_toNat_emod hb, Int.sub_emod_emod]
    rw [hpos]
    generalize (a % (b : Int)).toNat = k at hk ⊢
    simp only [hi, decide_true, Bool.true_and]
    split
    case isTrue hki =>
      rw [show (i : Int) - k = (i - k : Nat) by omega, toNat_natCast_emod (by omega)]
    case isFalse hki =>
      rw [← Int.add_emod_right, show (i : Int) - k + b = (i + b - k : Nat) by omega, toNat_natCast_emod (by omega)]
  · simp [hi]

/-- R100 read forwards: bit `j` of the input moves to bit `(j + a) mod b`. -/
theorem rotL_testBit_add {b v : Nat} (a : Int) (hb : 0 < b) (hv : v < 2 ^ b) {j : Nat} (hj : j < b) :
    (rotL b v a).testBit (((j : Int) + a) % b).toNat = v.testBit j := by
  rw [rotL_testBit_emod a hb hv, natCast_toNat_emod hb, Int.emod_sub_emod, add_sub_cancel_right, toNat_natCast_emod hj]
  simp [toNat_emod_lt hb]

/-- A left rotation depends on its amount through the floor modulus only (R100). -/
theorem rotL_congr {b : Nat} (v : Nat) {a a' : Int} (h : a % b = a' % b) : rotL b v a = rotL b v a' := by
  simp only [rotL, h]

/-- The right rotation is the left rotation by the opposite amount (R101). -/
theorem rotR_eq_rotL_neg (b v : Nat) (a : Int) : rotR b v a = rotL b v (-a) :=
  rotL_congr v (by rw [sub_eq_neg_add, Int.add_emod_right])

/-- A right rotation stays in the width (R101, R11). -/
theorem rotR_lt {b v : Nat} (a : Int) (hb : 0 < b) (hv : v < 2 ^ b) : rotR b v a < 2 ^ b := rotL_lt _ hb hv

/-- Rotating by 0 is the identity (R102). -/
theorem rotL_zero {b v : Nat} (hv : v < 2 ^ b) : rotL b v 0 = v := by
  simp [rotL, Nat.mod_eq_of_lt hv, Nat.shiftRight_eq_zero v b hv]

/-- Rotating by the width is the identity (R102). -/
theorem rotL_width {b v : Nat} (hv : v < 2 ^ b) : rotL b v b = v :=
  (rotL_congr v (by simp)).trans (rotL_zero hv)

/-- Two left rotations add their amounts (R102). -/
theorem rotL_rotL {b v : Nat} (a₁ a₂ : Int) (hb : 0 < b) (hv : v < 2 ^ b) :
    rotL b (rotL b v a₁) a₂ = rotL b v (a₁ + a₂) := by
  apply Nat.eq_of_testBit_eq
  intro i
  have hpos : (((i : Int) - a₂) % b - a₁) % b = (i - (a₁ + a₂)) % b := by
    rw [Int.emod_sub_emod, sub_sub, add_comm a₂]
  rw [rotL_testBit_emod a₂ hb (rotL_lt a₁ hb hv), rotL_testBit_emod a₁ hb hv, rotL_testBit_emod (a₁ + a₂) hb hv,
    natCast_toNat_emod hb, hpos]
  simp [toNat_emod_lt hb]

/-- Rotating left then right by one amount is the identity (R102). -/
theorem rotR_rotL {b v : Nat} (a : Int) (hb : 0 < b) (hv : v < 2 ^ b) : rotR b (rotL b v a) a = v := by
  rw [rotR_eq_rotL_neg, rotL_rotL _ _ hb hv, add_neg_cancel, rotL_zero hv]

/-- Rotating right then left by one amount is the identity (R102). -/
theorem rotL_rotR {b v : Nat} (a : Int) (hb : 0 < b) (hv : v < 2 ^ b) : rotL b (rotR b v a) a = v := by
  rw [rotR_eq_rotL_neg, rotL_rotL _ _ hb hv, neg_add_cancel, rotL_zero hv]

/-- Left rotation distributes over XOR (R102). -/
theorem rotL_xor {b u v : Nat} (a : Int) (hb : 0 < b) (hu : u < 2 ^ b) (hv : v < 2 ^ b) :
    rotL b (u ^^^ v) a = rotL b u a ^^^ rotL b v a := by
  apply Nat.eq_of_testBit_eq
  intro i
  rw [rotL_testBit_emod a hb (Nat.xor_lt_two_pow hu hv), Nat.testBit_xor, Nat.testBit_xor, rotL_testBit_emod a hb hu,
    rotL_testBit_emod a hb hv, Bool.and_xor_distrib_left]

/-- Left rotation distributes over AND (R102). -/
theorem rotL_and {b u v : Nat} (a : Int) (hb : 0 < b) (hu : u < 2 ^ b) (hv : v < 2 ^ b) :
    rotL b (u &&& v) a = rotL b u a &&& rotL b v a := by
  apply Nat.eq_of_testBit_eq
  intro i
  rw [rotL_testBit_emod a hb (Nat.and_lt_two_pow u hv), Nat.testBit_and, Nat.testBit_and, rotL_testBit_emod a hb hu,
    rotL_testBit_emod a hb hv]
  cases decide (i < b) <;> rfl

/-- Left rotation by one amount is injective on the width's values: the right rotation undoes it (R102). -/
theorem rotL_injective {b u v : Nat} (a : Int) (hb : 0 < b) (hu : u < 2 ^ b) (hv : v < 2 ^ b)
    (h : rotL b u a = rotL b v a) : u = v := by
  rw [← rotR_rotL a hb hu, h, rotR_rotL a hb hv]

end Sys2Proof.Machine

namespace Sys2Proof
open Machine

/-- Settles O22: the bits read forwards, and the range. -/
theorem rotateLeftMovesEveryBit : Obligations.RotateLeftMovesEveryBit := by
  intro b v a hb hv
  exact ⟨rotL_lt a hb hv, fun j hj => rotL_testBit_add a hb hv hj⟩

/-- Settles O23: the right rotation is the left one by the opposite amount. -/
theorem rotateRightMovesEveryBit : Obligations.RotateRightMovesEveryBit := by
  intro b v a hb hv
  refine ⟨rfl, rotR_lt a hb hv, fun j hj => ?_⟩
  rw [rotR_eq_rotL_neg, sub_eq_add_neg, rotL_testBit_add (-a) hb hv hj]

/-- Settles O24: the laws above; the right rotation of a value is the preimage that makes the left rotation onto. -/
theorem rotationLaws : Obligations.RotationLaws := by
  intro b u v a a₁ a₂ hb hu hv
  exact ⟨rotL_zero hv, rotL_width hv, rotR_rotL a hb hv, rotL_rotR a hb hv, rotL_rotL a₁ a₂ hb hv,
    rotL_xor a hb hu hv, rotL_and a hb hu hv, rotL_injective a hb hu hv, ⟨rotR b v a, rotR_lt a hb hv, rotL_rotR a hb hv⟩,
    rotL_lt a hb hv⟩

end Sys2Proof
end

section
/-! StateCodec: Load and Store as number formulas (R111, R113), each the other's inverse through the layout on `RSP_DATA`, and the
family's obligations. -/

namespace Sys2Proof.Machine

/-- The positional sum of the lowest `k` base-`b` digits of `x` is `x mod b ^ k`. -/
theorem sum_digits_eq_mod (b x k : Nat) : ∑ i ∈ Finset.range k, x / b ^ i % b * b ^ i = x % b ^ k := by
  induction k with
  | zero => simp [Nat.mod_one]
  | succ k ih => rw [Finset.sum_range_succ, ih, Nat.mod_pow_succ, Nat.mul_comm]

/-- A word of a loaded operand as a number (R111). -/
theorem operandWord_toNat (x : Nat) (n : Fin 16) : (operandWord x n).toNat = x / 2 ^ (16 * n.val) % 2 ^ 16 := by
  rw [operandWord, BitVec.toNat_ofNat, Nat.shiftRight_eq_div_pow]

/-- The inverse formula of Load: the words of a loaded operand weigh up to the operand (R111). -/
theorem sum_operandWord (x : Nat) : ∑ n : Fin 16, (operandWord x n).toNat * 2 ^ (16 * n.val) = x % 2 ^ 256 := by
  simp only [operandWord_toNat, Nat.pow_mul 2 16]
  rw [Fin.sum_univ_eq_sum_range (fun i => x / (2 ^ 16) ^ i % 2 ^ 16 * (2 ^ 16) ^ i), sum_digits_eq_mod, ← Nat.pow_mul]

/-- The even byte `2n` is the low byte of word `n` (R113). -/
theorem outputByte_even_toNat (g : Grid) (n : Fin 16) :
    (outputByte g ⟨2 * n.val, by omega⟩).toNat = (g[n]).toNat % 256 := by
  have heven : 2 * n.val % 2 = 0 := by omega
  have hidx : 2 * n.val / 2 = n.val := by omega
  simp only [outputByte, heven, if_true, hidx, BitVec.extractLsb'_toNat, Nat.shiftRight_zero]
  rfl

/-- The odd byte `2n + 1` is the high byte of word `n` (R113). -/
theorem outputByte_odd_toNat (g : Grid) (n : Fin 16) :
    (outputByte g ⟨2 * n.val + 1, by omega⟩).toNat = (g[n]).toNat / 256 := by
  have hodd : ¬ (2 * n.val + 1) % 2 = 0 := by omega
  have hidx : (2 * n.val + 1) / 2 = n.val := by omega
  have hhigh : (g[n]).toNat / 2 ^ 8 < 2 ^ 8 := Nat.div_lt_of_lt_mul (g[n]).isLt
  simp only [outputByte, hodd, if_false, hidx, BitVec.extractLsb'_toNat, Nat.shiftRight_eq_div_pow]
  exact Nat.mod_eq_of_lt hhigh

/-- Every bit position of `RSP_DATA` lies in one word of the grid (R112). -/
theorem exists_word_bit {k : Nat} (hk : k < 256) : ∃ n j : Fin 16, k = 16 * n.val + j.val :=
  ⟨⟨k / 16, by omega⟩, ⟨k % 16, by omega⟩, (Nat.div_add_mod k 16).symm⟩

/-- Store after Load, laid out on `RSP_DATA`, is the operand's low 256 bits (R114). -/
theorem packStore_loadGrid (x : Nat) : packBytes (storeBytes (loadGrid x)) = BitVec.ofNat 256 x := by
  apply BitVec.eq_of_getLsbD_eq
  intro k hk
  obtain ⟨n, j, rfl⟩ := exists_word_bit hk
  rw [packStore_getLsbD, loadGrid_word, operandWord_getLsbD, BitVec.getLsbD_ofNat]
  simp [hk]

/-- Load gives back the grid whose bytes Store laid out on `RSP_DATA` (R111, R113). -/
theorem loadGrid_packStore (g : Grid) : loadGrid (packBytes (storeBytes g)).toNat = g := by
  apply grid_ext
  intro n
  apply BitVec.eq_of_getLsbD_eq
  intro j hj
  rw [loadGrid_word, operandWord_getLsbD, BitVec.testBit_toNat, packStore_getLsbD g n ⟨j, hj⟩]
  simp [hj]

/-- Byte `m` of Store after Load is byte `m` of the operand's low 256 bits (R114). -/
theorem storeBytes_loadGrid (x : Nat) (m : Fin 32) :
    (storeBytes (loadGrid x))[m] = outputBuffer (BitVec.ofNat 256 x) m := by
  rw [← outputBuffer_packBytes, packStore_loadGrid]

/-- A byte of `RSP_DATA` as a number (R34). -/
theorem outputBuffer_toNat (d : BitVec 256) (m : Fin 32) :
    (outputBuffer d m).toNat = d.toNat / 2 ^ (8 * m.val) % 2 ^ 8 := by
  rw [outputBuffer, BitVec.extractLsb'_toNat, Nat.shiftRight_eq_div_pow]

/-- Store gives back the bytes whose layout on `RSP_DATA` was loaded (R111, R113). -/
theorem storeBytes_loadGrid_packBytes (bs : Vector Byte 32) : storeBytes (loadGrid (packBytes bs).toNat) = bs := by
  apply Vector.ext
  intro m hm
  have h := storeBytes_loadGrid (packBytes bs).toNat ⟨m, hm⟩
  rwa [BitVec.ofNat_toNat, BitVec.setWidth_eq, outputBuffer_packBytes] at h

/-- Load is a bijection from the 256-bit operands to the grids; its inverse is Store's layout on `RSP_DATA` (R111). -/
theorem loadGrid_bijective : Function.Bijective (fun x : BitVec 256 => loadGrid x.toNat) :=
  Function.bijective_iff_has_inverse.2
    ⟨fun g => packBytes (storeBytes g),
      fun x => by simp only [packStore_loadGrid, BitVec.ofNat_toNat, BitVec.setWidth_eq],
      loadGrid_packStore⟩

/-- Store is a bijection from the grids to the 32-byte sequences; its inverse is Load of the layout (R113). -/
theorem storeBytes_bijective : Function.Bijective storeBytes :=
  Function.bijective_iff_has_inverse.2
    ⟨fun bs => loadGrid (packBytes bs).toNat, loadGrid_packStore, storeBytes_loadGrid_packBytes⟩

end Sys2Proof.Machine

namespace Sys2Proof
open Machine

/-- Settles O25: laid out on `RSP_DATA`, Store after Load is the operand, so its bytes are the operand's. -/
theorem storeOfLoadIsLittleEndian : Obligations.StoreOfLoadIsLittleEndian := by
  intro x hx
  have hval : (BitVec.ofNat 256 x).toNat = x := by rw [BitVec.toNat_ofNat, Nat.mod_eq_of_lt hx]
  refine ⟨fun m => ?_, ?_⟩
  · rw [storeBytes_loadGrid, outputBuffer_toNat, hval]
  · rw [packStore_loadGrid, hval]

/-- Settles O26: the formulas word by word and byte by byte, and the two inverses above. -/
theorem loadAndStoreAreBijections : Obligations.LoadAndStoreAreBijections := by
  refine ⟨fun x _ n => ?_, loadGrid_bijective, fun x hx => ?_, fun g n => ?_, storeBytes_bijective⟩
  · rw [loadGrid_word, operandWord_toNat]
  · simp only [loadGrid_word, sum_operandWord, Nat.mod_eq_of_lt hx]
  · rw [storeBytes_getElem, storeBytes_getElem]
    exact ⟨outputByte_even_toNat g n, outputByte_odd_toNat g n⟩

end Sys2Proof
end

section
/-! SubRows lane by lane: the four lines of R120 read on single bits (R121), their table (R122), and the family's obligation. -/

namespace Sys2Proof.Machine

/-- The number `8p + 4q + 2r + s` of a lane (R122). -/
def laneNumber (p q r s : Bool) : Nat := 8 * p.toNat + 4 * q.toNat + 2 * r.toNat + s.toNat

/-- Lane `z` of a row as a number (R121, R122). -/
def rowLane (w : Row) (z : Nat) : Nat :=
  laneNumber (w.p.getLsbD z) (w.q.getLsbD z) (w.r.getLsbD z) (w.s.getLsbD z)

/-- The S-box on one lane: the four lines of R120 on single bits (R121), the result as a number. -/
def laneSBox (p q r s : Bool) : Nat :=
  let p' := r ^^ (p && q)
  let q' := s ^^ (q && r)
  let r' := p ^^ (p' && q')
  let s' := q ^^ (q' && r')
  laneNumber p' q' r' s'

/-- The S-box as a list indexed by the input lane (R122). -/
def sBoxTable : List Nat := [0x0, 0x4, 0x8, 0xF, 0x1, 0x5, 0xE, 0x9, 0x2, 0x7, 0xA, 0xC, 0xB, 0xD, 0x6, 0x3]

/-- The table lists the S-box: R120's four lines evaluated on all sixteen lanes (R122). -/
theorem sBoxTable_laneNumber : ∀ p q r s : Bool, sBoxTable[laneNumber p q r s]? = some (laneSBox p q r s) := by decide

/-- The lanes do not interact: lane `z` of the output row is the S-box of lane `z` of the input row (R121). -/
theorem rowLane_subRow (w : Row) (z : Nat) :
    rowLane (subRow w) z = laneSBox (w.p.getLsbD z) (w.q.getLsbD z) (w.r.getLsbD z) (w.s.getLsbD z) := by
  simp only [rowLane, laneSBox, subRow, BitVec.getLsbD_xor, BitVec.getLsbD_and]

/-- The row function looks every lane up in the table (R121, R122). -/
theorem sBoxTable_rowLane (w : Row) (z : Nat) : sBoxTable[rowLane w z]? = some (rowLane (subRow w) z) := by
  rw [rowLane_subRow, rowLane, sBoxTable_laneNumber]

end Sys2Proof.Machine

namespace Sys2Proof
open Machine

/-- Settles O27: SubRows acts on each row by itself, and within a row looks every lane up in the table. -/
theorem subRowsIsTheSBoxInEveryLane : Obligations.SubRowsIsTheSBoxInEveryLane := by
  intro g i z
  have h := sBoxTable_rowLane (gridRow g i) z
  rw [← gridRow_subRows] at h
  exact h

end Sys2Proof
end

section
/-! Masks: the sum of `2^k` over the columns a row takes adds each power at a clear bit, so it is an XOR (R131), and the family's
obligation. -/

namespace Sys2Proof.Machine

/-- The word with the one bit `k` set, in the two spellings of the model and the library. -/
theorem ofNat_two_pow (k : Fin 16) : BitVec.ofNat 16 (2 ^ k.val) = BitVec.twoPow 16 k.val :=
  BitVec.eq_of_toNat_eq (by rw [BitVec.toNat_ofNat, BitVec.toNat_twoPow])

/-- Bit `z` of the word with the one bit `k` set. -/
theorem getLsbD_unitWord (k z : Fin 16) : (BitVec.ofNat 16 (2 ^ k.val)).getLsbD z = decide (k = z) := by
  rw [ofNat_two_pow, BitVec.getLsbD_twoPow]
  simp [k.isLt, Fin.ext_iff]

/-- Adding a power of two at a clear bit carries nowhere: it is the XOR. -/
theorem add_unitWord (v : Word) (k : Fin 16) (h : v.getLsbD k = false) :
    v + BitVec.ofNat 16 (2 ^ k.val) = v ^^^ BitVec.ofNat 16 (2 ^ k.val) := by
  have hand : v &&& BitVec.ofNat 16 (2 ^ k.val) = 0 := by
    rw [ofNat_two_pow, BitVec.and_twoPow, h]; rfl
  rw [BitVec.add_eq_or_of_and_eq_zero _ _ hand]
  apply BitVec.eq_of_getLsbD_eq
  intro z hz
  have hbit := getLsbD_unitWord k ⟨z, hz⟩
  rw [BitVec.getLsbD_or, BitVec.getLsbD_xor, hbit]
  by_cases hkz : k = ⟨z, hz⟩
  · subst hkz
    rw [h, Bool.false_or, Bool.false_xor]
  · rw [decide_eq_false hkz, Bool.or_false, Bool.xor_false]

/-- Over distinct columns whose bits are clear at the start, the sum of the powers taken is their XOR. -/
theorem foldl_add_unitWord (f : Fin 16 → Bool) (l : List (Fin 16)) (acc : Word) (hl : l.Nodup)
    (hacc : ∀ k ∈ l, acc.getLsbD k = false) :
    l.foldl (fun acc k => if f k then acc + BitVec.ofNat 16 (2 ^ k.val) else acc) acc =
      l.foldl (fun acc k => if f k then acc ^^^ BitVec.ofNat 16 (2 ^ k.val) else acc) acc := by
  induction l generalizing acc with
  | nil => rfl
  | cons k l ih =>
    obtain ⟨hk, hl⟩ := List.nodup_cons.1 hl
    obtain ⟨hclear, hrest⟩ := List.forall_mem_cons.1 hacc
    rw [List.foldl_cons, List.foldl_cons, add_unitWord acc k hclear]
    refine ih _ hl fun j hj => ?_
    have hne : k ≠ j := fun h => hk (h ▸ hj)
    split
    · rw [BitVec.getLsbD_xor, hrest j hj, getLsbD_unitWord, decide_eq_false hne]; rfl
    · exact hrest j hj

theorem flatIndices_nodup : flatIndices.Nodup := by decide

/-- Every column occurs exactly once among the flat indices. -/
theorem filter_flatIndices_eq (z : Fin 16) : (flatIndices.filter fun k => decide (k = z)) = [z] := by revert z; decide

/-- The grid whose word `k` is `2^k`. -/
def unitGrid : Grid := Vector.ofFn fun k => BitVec.ofNat 16 (2 ^ k.val)

theorem unitGrid_word (k : Fin 16) : unitGrid[k] = BitVec.ofNat 16 (2 ^ k.val) := by simp [unitGrid]

/-- The mask selects: it is the output word of MixSlices on the unit grid (R130, R131). -/
theorem mixWord_unitGrid (P : Params) (n : Fin 16) : mixWord P unitGrid n = maskOf P n := by
  simp only [mixWord, maskOf, unitGrid_word]
  exact (foldl_add_unitWord (P.m n) flatIndices 0 flatIndices_nodup fun _ _ => BitVec.getLsbD_zero).symm

/-- Among the columns a row takes, a column occurs once or not at all. -/
theorem filter_flatIndices_and_eq (f : Fin 16 → Bool) (z : Fin 16) :
    (flatIndices.filter fun k => f k && decide (k = z)) = if f z then [z] else [] := by
  rw [← List.filter_filter, filter_flatIndices_eq, List.filter_singleton, Bool.cond_eq_ite]

/-- A mask's bits are the row of the matrix (R131). -/
theorem maskOf_getLsbD (P : Params) (n z : Fin 16) : (maskOf P n).getLsbD z = P.m n z := by
  rw [← mixWord_unitGrid, mixWord_getLsbD]
  simp only [unitGrid_word, getLsbD_unitWord, filter_flatIndices_and_eq]
  cases P.m n z <;> rfl

end Sys2Proof.Machine

namespace Sys2Proof
open Machine

/-- Settles O30: bit by bit through the slice view, and word by word on the unit grid. -/
theorem maskBitsAreTheMatrix : Obligations.MaskBitsAreTheMatrix := fun P =>
  ⟨maskOf_getLsbD P, fun n => (mixSlices_word P unitGrid n).trans (mixWord_unitGrid P n)⟩

end Sys2Proof
end

section
/-! ShiftPlanes row by row: the left rotation of every word undoes it, rotation distributes over XOR, the round index enters by its
parity only (R143), and the family's obligation. -/

namespace Sys2Proof.Machine

/-- Right rotation distributes over XOR (R101, R102). -/
theorem rotRight_xor (u v : Word) {a : Nat} (h : a ≤ 16) : rotRight (u ^^^ v) a = rotRight u a ^^^ rotRight v a := by
  simp only [rotRight_eq_rotLeft _ h, rotLeft_xor]

/-- Word `n` of the XOR of two grids. -/
theorem xorGrid_word (a b : Grid) (n : Fin 16) : (Vector.zipWith (· ^^^ ·) a b)[n] = a[n] ^^^ b[n] :=
  Vector.getElem_zipWith n.isLt

/-- The shift amount as R140 writes it: the table of `i mod 2`, at row `floor(n / 4)`. -/
theorem shiftAmount_eq (P : Params) (i : BitVec 4) (n : Fin 16) :
    shiftAmount P i n = (P.rot (if i.toNat % 2 = 0 then 0 else 1) ⟨n.val / 4, by omega⟩).toNat := by
  rw [shiftAmount, parityOf_eq, rowOf]

/-- The inverse of ShiftPlanes: every word rotated left by its row's amount (R143). -/
def unshiftPlanes (P : Params) (i : BitVec 4) (g : Grid) : Grid :=
  Vector.ofFn fun n => rotLeft g[n] (shiftAmount P i n)

theorem unshiftPlanes_word (P : Params) (i : BitVec 4) (g : Grid) (n : Fin 16) :
    (unshiftPlanes P i g)[n] = rotLeft g[n] (shiftAmount P i n) := by simp [unshiftPlanes]

/-- Rotating a word left by its row's amount gives back what ShiftPlanes rotated (R143). -/
theorem rotLeft_shiftPlanes_word (P : Params) (i : BitVec 4) (g : Grid) (n : Fin 16) :
    rotLeft (shiftPlanes P i g)[n] (shiftAmount P i n) = g[n] := by
  rw [shiftPlanes_word, rotLeft_rotRight _ (shiftAmount_lt P i n)]

theorem unshiftPlanes_shiftPlanes (P : Params) (i : BitVec 4) (g : Grid) : unshiftPlanes P i (shiftPlanes P i g) = g :=
  grid_ext fun n => by rw [unshiftPlanes_word, rotLeft_shiftPlanes_word]

theorem shiftPlanes_unshiftPlanes (P : Params) (i : BitVec 4) (g : Grid) : shiftPlanes P i (unshiftPlanes P i g) = g :=
  grid_ext fun n => by rw [shiftPlanes_word, unshiftPlanes_word, rotRight_rotLeft _ (shiftAmount_lt P i n)]

/-- ShiftPlanes is a bijection on the grids (R143). -/
theorem shiftPlanes_bijective (P : Params) (i : BitVec 4) : Function.Bijective (shiftPlanes P i) :=
  Function.bijective_iff_has_inverse.2
    ⟨unshiftPlanes P i, unshiftPlanes_shiftPlanes P i, shiftPlanes_unshiftPlanes P i⟩

/-- ShiftPlanes is linear: it distributes over the XOR of grids (R143). -/
theorem shiftPlanes_xor (P : Params) (i : BitVec 4) (a b : Grid) :
    shiftPlanes P i (Vector.zipWith (· ^^^ ·) a b) =
      Vector.zipWith (· ^^^ ·) (shiftPlanes P i a) (shiftPlanes P i b) := by
  apply grid_ext
  intro n
  rw [xorGrid_word, shiftPlanes_word, shiftPlanes_word, shiftPlanes_word, xorGrid_word,
    rotRight_xor _ _ (shiftAmount_lt P i n).le]

/-- An index and its remainder mod 2 have one parity (R142). -/
theorem parityOf_mod_two (i : BitVec 4) : parityOf (BitVec.ofNat 4 (i.toNat % 2)) = parityOf i := by
  have hlt : i.toNat % 2 < 2 ^ 4 := by omega
  rw [parityOf_eq, parityOf_eq, BitVec.toNat_ofNat, Nat.mod_eq_of_lt hlt, Nat.mod_mod]

/-- Indices of one parity shift alike (R142). -/
theorem shiftPlanes_congr (P : Params) {i j : BitVec 4} (h : parityOf i = parityOf j) :
    shiftPlanes P i = shiftPlanes P j := by
  funext g
  simp only [shiftPlanes, shiftAmount, h]

end Sys2Proof.Machine

namespace Sys2Proof
open Machine

/-- Settles O31: the left rotations are a two-sided inverse, and XOR and parity pass through word by word. -/
theorem shiftPlanesLaws : Obligations.ShiftPlanesLaws := by
  intro P i a b
  refine ⟨shiftPlanes_bijective P i, fun n => ?_, shiftPlanes_xor P i a b, shiftPlanes_congr P (parityOf_mod_two i).symm⟩
  rw [← shiftAmount_eq, rotLeft_shiftPlanes_word]

end Sys2Proof
end

section
/-! AddConstant: the choice of `C1` or `C2` by the parity of the index and the amount `i + n` (R150), the zero grid and the
involution (R151), and the family's obligation. -/

namespace Sys2Proof.Machine

/-- Even indices take `C1` (R150). -/
theorem constantOf_even (P : Params) {n : Fin 16} (h : n.val % 2 = 0) : constantOf P n = P.c1 := if_pos h

/-- Odd indices take `C2` (R150). -/
theorem constantOf_odd (P : Params) {n : Fin 16} (h : n.val % 2 = 1) : constantOf P n = P.c2 :=
  if_neg (by omega)

/-- Indices of one parity take the same constant (R150). -/
theorem constantOf_congr (P : Params) {n k : Fin 16} (h : n.val % 2 = k.val % 2) : constantOf P n = constantOf P k := by
  simp only [constantOf, h]

/-- The round constant depends on the parity of `n` and on the sum `i + n` only (R150). -/
theorem roundConstant_congr (P : Params) {i j : BitVec 4} {n k : Fin 16} (hpar : n.val % 2 = k.val % 2)
    (hsum : i.toNat + n.val = j.toNat + k.val) : roundConstant P i n = roundConstant P j k := by
  rw [roundConstant_mod, roundConstant_mod, constantOf_congr P hpar, hsum]

/-- AddConstant takes the zero grid to the constants of the round (R151). -/
theorem addConstant_zero (P : Params) (i : BitVec 4) :
    addConstant P i (Vector.replicate 16 0) = Vector.ofFn (roundConstant P i) := by
  apply grid_ext
  intro n
  rw [addConstant_word]
  simp

/-- AddConstant is its own inverse: each constant is XORed in twice (R151). -/
theorem addConstant_involutive (P : Params) (i : BitVec 4) : Function.Involutive (addConstant P i) := by
  intro g
  apply grid_ext
  intro n
  rw [addConstant_word, addConstant_word, BitVec.xor_assoc, BitVec.xor_self, BitVec.xor_zero]

end Sys2Proof.Machine

namespace Sys2Proof
open Machine

/-- Settles O32: parity chooses the constant, and moving 2 from the index to the round keeps both the parity and the amount. -/
theorem roundConstantLaws : Obligations.RoundConstantLaws := by
  intro P i n g
  refine ⟨fun heven => ?_, fun hodd => ?_, fun j k hround hindex => ?_, addConstant_zero P i, addConstant_involutive P i g⟩
  · rw [roundConstant_mod, constantOf_even P heven]
  · rw [roundConstant_mod, constantOf_odd P hodd]
  · exact roundConstant_congr P (by omega) (by omega)

end Sys2Proof
end

section
/-! R184: MixSlices read as multiplication by `M` of the 16×16 matrix of the grid's bits over GF(2), one column per slice, and what
a round and the whole permutation have of it. -/

namespace Sys2Proof.Machine

/-- A bit as an element of GF(2). -/
def gf2 (b : Bool) : ZMod 2 := if b then 1 else 0

theorem gf2_and (a b : Bool) : gf2 (a && b) = gf2 a * gf2 b := by revert a b; decide

theorem decide_gf2_eq_one (b : Bool) : decide (gf2 b = 1) = b := by revert b; decide

theorem gf2_decide_eq_one (x : ZMod 2) : gf2 (decide (x = 1)) = x := by revert x; decide

/-- The parity of a number is the number in GF(2). -/
theorem gf2_decide_odd (m : Nat) : gf2 (decide (Odd m)) = m := by
  rw [← gf2_decide_eq_one m]
  simp only [ZMod.natCast_eq_one_iff_odd]

/-- The number of elements a list keeps is, in GF(2), the sum of the tests. -/
theorem natCast_length_filter {α : Type} (p : α → Bool) (l : List α) :
    ((l.filter p).length : ZMod 2) = (l.map fun k => gf2 (p k)).sum := by
  induction l with
  | nil => rfl
  | cons k l ih =>
    rw [List.filter_cons, List.map_cons, List.sum_cons, ← ih]
    cases p k <;> simp [gf2, add_comm]

/-- The flat indices in order are the library's list of all of `Fin 16`. -/
theorem flatIndices_eq_finRange : flatIndices = List.finRange 16 := by decide

/-- The bits of the grid as a matrix over GF(2): row `n` is word `n`, column `z` is slice `z` (R132). -/
def sliceMatrix (g : Grid) : Matrix (Fin 16) (Fin 16) (ZMod 2) := Matrix.of fun n z => gf2 ((g[n]).getLsbD z)

theorem sliceMatrix_apply (g : Grid) (n z : Fin 16) : sliceMatrix g n z = gf2 ((g[n]).getLsbD z) := rfl

/-- The grid with given slices. -/
def gridOfSlices (X : Matrix (Fin 16) (Fin 16) (ZMod 2)) : Grid :=
  Vector.ofFn fun n => BitVec.ofFnLE fun z => decide (X n z = 1)

theorem gridOfSlices_getLsbD (X : Matrix (Fin 16) (Fin 16) (ZMod 2)) (n z : Fin 16) :
    ((gridOfSlices X)[n]).getLsbD z = decide (X n z = 1) := by
  simp [gridOfSlices]

/-- A grid is its slices (R132). -/
theorem sliceMatrix_bijective : Function.Bijective sliceMatrix := by
  refine Function.bijective_iff_has_inverse.2 ⟨gridOfSlices, fun g => ?_, fun X => ?_⟩
  · refine grid_ext fun n => BitVec.eq_of_getLsbD_eq fun z hz => ?_
    rw [gridOfSlices_getLsbD (sliceMatrix g) n ⟨z, hz⟩, sliceMatrix_apply, decide_gf2_eq_one]
  · ext n z
    rw [sliceMatrix_apply, gridOfSlices_getLsbD, gf2_decide_eq_one]

/-- `M` as a matrix over GF(2) (R131). -/
def mixMatrix (P : Params) : Matrix (Fin 16) (Fin 16) (ZMod 2) := Matrix.of fun n k => gf2 (P.m n k)

/-- MixSlices multiplies every slice by `M` (R132). -/
theorem sliceMatrix_mixSlices (P : Params) (g : Grid) : sliceMatrix (mixSlices P g) = mixMatrix P * sliceMatrix g := by
  ext n z
  rw [sliceMatrix_apply, mixSlices_word, mixWord_getLsbD, gf2_decide_odd, natCast_length_filter, flatIndices_eq_finRange,
    Matrix.mul_apply, Fin.sum_univ_def]
  simp only [gf2_and]
  rfl

/-- MixSlices is a bijection exactly when `M` is invertible: left multiplication by `M` is one exactly then (R184). -/
theorem mixSlices_bijective_iff (P : Params) : Function.Bijective (mixSlices P) ↔ IsUnit (mixMatrix P) := by
  have hcomm : sliceMatrix ∘ mixSlices P = (mixMatrix P * ·) ∘ sliceMatrix := funext (sliceMatrix_mixSlices P)
  rw [IsUnit.isUnit_iff_mulLeft_bijective, ← Function.Bijective.of_comp_iff _ sliceMatrix_bijective, ← hcomm,
    Function.Bijective.of_comp_iff' sliceMatrix_bijective]

/-- SubRows is its own inverse on the whole grid: the row function is, row by row (R123). -/
theorem subRows_involutive : Function.Involutive subRows := by
  intro g
  refine grid_ext fun n => ?_
  obtain ⟨i, j, rfl⟩ := exists_flat n
  rw [subRows_word, rowOf_flat, colOf_flat, gridRow_subRows, subRow_subRow, rowWord_gridRow]

/-- The three layers of a round beside MixSlices are bijections, so the round is one exactly when MixSlices is (R184). -/
theorem roundGrid_bijective_iff (P : Params) (i : BitVec 4) :
    Function.Bijective (roundGrid P i) ↔ Function.Bijective (mixSlices P) := by
  have hround : roundGrid P i = addConstant P i ∘ shiftPlanes P i ∘ mixSlices P ∘ subRows := rfl
  rw [hround, Function.Bijective.of_comp_iff' (addConstant_involutive P i).bijective,
    Function.Bijective.of_comp_iff' (shiftPlanes_bijective P i), Function.Bijective.of_comp_iff _ subRows_involutive.bijective]

/-- Folding bijections over a list gives a bijection. -/
theorem foldl_bijective {α β : Type} {f : β → α → α} (hf : ∀ i, Function.Bijective (f i)) (l : List β) :
    Function.Bijective fun g => l.foldl (fun acc i => f i acc) g := by
  induction l with
  | nil => exact Function.bijective_id
  | cons i l ih => exact ih.comp (hf i)

/-- Where a fold over a list is injective, so is the function applied first. -/
theorem injective_of_foldl_cons {α β : Type} {f : β → α → α} {i : β} {l : List β}
    (h : Function.Injective fun g => (i :: l).foldl (fun acc i => f i acc) g) : Function.Injective (f i) :=
  Function.Injective.of_comp (f := fun g => l.foldl (fun acc i => f i acc) g) h

/-- There are finitely many grids: Load reaches them all. -/
theorem finite_grid : Finite Grid := Finite.of_surjective _ loadGrid_bijective.2

/-- The sixteen rounds are a bijection exactly when MixSlices is: if they are, the first of them is injective (R184). -/
theorem roundsGrid_bijective_iff (P : Params) :
    Function.Bijective (roundsGrid P) ↔ Function.Bijective (mixSlices P) := by
  have hfinite := finite_grid
  constructor
  · intro h
    unfold roundsGrid roundIndices at h
    have hfirst := injective_of_foldl_cons h.injective
    exact (roundGrid_bijective_iff P 0).1 (Finite.injective_iff_bijective.1 hfirst)
  · intro h
    exact foldl_bijective (fun i => (roundGrid_bijective_iff P i).2 h) roundIndices

/-- Load and Store are bijections, so the permutation is one exactly when the sixteen rounds are (R180, R184). -/
theorem permuteBytes_bijective_iff (P : Params) :
    Function.Bijective (fun x : BitVec 256 => permuteBytes P x.toNat) ↔ Function.Bijective (roundsGrid P) := by
  have hpermute : (fun x : BitVec 256 => permuteBytes P x.toNat) =
      storeBytes ∘ roundsGrid P ∘ fun x : BitVec 256 => loadGrid x.toNat := by
    funext x
    rw [Function.comp_apply, Function.comp_apply, permuteBytes]
  rw [hpermute, Function.Bijective.of_comp_iff' storeBytes_bijective, Function.Bijective.of_comp_iff _ loadGrid_bijective]

end Sys2Proof.Machine

namespace Sys2Proof
open Machine

/-- Settles O35: MixSlices is left multiplication by `M` on the slices, and every other layer is a bijection. -/
theorem permutationIsBijectiveExactlyWhenMatrixIsInvertible :
    Obligations.PermutationIsBijectiveExactlyWhenMatrixIsInvertible := fun P =>
  ⟨loadGrid_bijective, storeBytes_bijective, subRows_involutive.bijective, shiftPlanes_bijective P,
    fun i => (addConstant_involutive P i).bijective, mixSlices_bijective_iff P,
    (permuteBytes_bijective_iff P).trans ((roundsGrid_bijective_iff P).trans (mixSlices_bijective_iff P))⟩

end Sys2Proof
end

section
/-! The two host commands as operations (R161, R162) and as the step that accepts them, and the table of control transfers (R170). -/

namespace Sys2Proof.Machine

variable {s : State}

/-- A ready engine takes CONFIGURE (R160, R161). -/
theorem exec_configure_ready (cfg : Nat) (hp : s.engine.ph = 0) (hv : s.engine.rspValid = false) :
    exec (.configure cfg) s = .next (s.configure Config.params.cfgOk.toNat cfg) := by
  rw [exec_configure, if_pos ((Engine.cmdReady_iff _).2 ⟨hp, hv⟩)]

/-- A ready engine takes PERMUTE (R160, R162). -/
theorem exec_permute_ready (x : Nat) (hp : s.engine.ph = 0) (hv : s.engine.rspValid = false) :
    exec (.permute x) s = .next (s.permute x) := by
  rw [exec_permute, if_pos ((Engine.cmdReady_iff _).2 ⟨hp, hv⟩)]

/-- The step that accepts a CONFIGURE (R80, R161). -/
theorem step_configure (ha : s.accepts) (ho : s.port.cmdOp = 0) :
    step s = .next (s.configure Config.params.cfgOk.toNat s.port.cmdData).advance := by
  have ⟨_, _, hp, hv⟩ := ha
  rw [step_accept ha, decodeCmd, if_pos ho, exec_configure_ready _ hp hv, closeEdge_next]

/-- The step that accepts a PERMUTE (R80, R162). -/
theorem step_permute (ha : s.accepts) (ho : s.port.cmdOp = 1) :
    step s = .next (s.permute s.port.cmdData).advance := by
  have ⟨_, _, hp, hv⟩ := ha
  rw [step_accept ha, decodeCmd, if_neg (by rw [ho]; decide), exec_permute_ready _ hp hv, closeEdge_next]

/-- The step that accepts a valid PERMUTE performs LOAD (R110, R162). -/
theorem step_load (h : s.startsCall) : step s = .next (s.loadOperand s.port.cmdData).advance := by
  obtain ⟨ha, ho, hc, hx⟩ := h
  rw [step_permute ha ho, State.permute_valid s hc hx]

/-- Writing the grid and then `(PH, RND)`, for any grid, so that no comparison of states unfolds one. -/
theorem State.setGrid_setUPC (s : State) (g : Grid) (ph : BitVec 3) (rnd : BitVec 4) :
    (s.setGrid g).setUPC ph rnd = { s with engine := { s.engine with g := g, ph := ph, rnd := rnd } } := rfl

/-- CONFIGURE leaves `(PH, RND)` unchanged (R161, R170). -/
theorem State.configure_uPC (s : State) (cfgOk cfg : Nat) :
    (s.configure cfgOk cfg).engine.ph = s.engine.ph ∧ (s.configure cfgOk cfg).engine.rnd = s.engine.rnd := by
  by_cases h : cfg = cfgOk
  · rw [State.configure_supported s h]; exact ⟨rfl, rfl⟩
  · rw [State.configure_unsupported s h]; exact ⟨rfl, rfl⟩

/-- A PERMUTE that fails a check leaves `(PH, RND)` unchanged (R162, R170). -/
theorem State.permute_uPC {x : Nat} (h : s.engine.configured = false ∨ 2 ^ 256 ≤ x) :
    (s.permute x).engine.ph = s.engine.ph ∧ (s.permute x).engine.rnd = s.engine.rnd := by
  by_cases hc : s.engine.configured = false
  · rw [State.permute_unconfigured s x hc]; exact ⟨rfl, rfl⟩
  · rw [State.permute_outOfRange s (by simpa using hc) (h.resolve_left hc)]; exact ⟨rfl, rfl⟩

/-- A command answered at once leaves `(PH, RND)` unchanged (R170). -/
theorem step_answersAtOnce_uPC (h : s.answersAtOnce) :
    ∃ t, step s = .next t ∧ t.engine.ph = s.engine.ph ∧ t.engine.rnd = s.engine.rnd := by
  obtain ⟨ha, hwhy⟩ := h
  rcases BitVec.eq_zero_or_eq_one s.port.cmdOp with ho | ho
  · exact ⟨_, step_configure ha ho, State.configure_uPC _ _ _⟩
  · have hfails := hwhy.resolve_left (by rw [ho]; decide)
    exact ⟨_, step_permute ha ho, State.permute_uPC hfails⟩

/-- After the last round comes STORE (R151, R170). -/
theorem phaseAfterRound_last : phaseAfterRound 15 = 5 := rfl

/-- After every other round comes SUBROWS of the next (R151, R170). -/
theorem phaseAfterRound_of_ne {i : BitVec 4} (h : i ≠ 15) : phaseAfterRound i = 1 :=
  if_neg (by rwa [lastRound, decide_eq_true_eq])

/-- Without a response there is nothing to take (R166). -/
theorem State.not_takes (hv : s.engine.rspValid = false) : ¬s.takes := by
  rintro ⟨_, _, h⟩
  rw [hv] at h
  cases h

end Sys2Proof.Machine

namespace Sys2Proof
open Machine

/-- Settles O13: a ready engine takes the command, whose two branches are the two clauses. -/
theorem configureAnswersAtOnce : Obligations.ConfigureAnswersAtOnce := by
  intro s cfg hp hv
  rw [exec_configure_ready cfg hp hv]
  refine ⟨fun h => ?_, fun h => ?_⟩
  · rw [State.configure_supported s h]; rfl
  · rw [State.configure_unsupported s h]; rfl

/-- Settles O14: a ready engine takes the command, whose three branches are the three clauses. -/
theorem permuteChecksThenLoads : Obligations.PermuteChecksThenLoads := by
  intro s x hp hv
  rw [exec_permute_ready x hp hv]
  refine ⟨fun hc => ?_, fun hc hx => ?_, fun hc hx => ⟨loadGrid x, fun n => ?_, ?_⟩⟩
  · rw [State.permute_unconfigured s x hc]; rfl
  · rw [State.permute_outOfRange s hc hx]; rfl
  · rw [loadGrid_word, operandWord_toNat]
  · rw [State.permute_valid s hc hx, State.loadOperand, State.setGrid_setUPC]

/-- Settles O36: each row is the step of its phase or command. -/
theorem controlTransferTable : Obligations.ControlTransferTable := by
  intro s hr
  refine ⟨fun ha ho hc hx => ⟨_, step_load ⟨ha, ho, hc, hx⟩, rfl, rfl⟩, fun hv hp => ?_, fun hv hp hi => ?_,
    fun hv hp hi => ?_, fun hv hp hi => ⟨_, step_store hr (State.not_takes hv) hp, rfl, hi⟩,
    fun ha hwhy => step_answersAtOnce_uPC ⟨ha, hwhy⟩, fun ht hp => ?_⟩
  · rcases hp with hp | hp | hp <;> rw [hp]
    · exact ⟨_, step_subrows hr (State.not_takes hv) hp, rfl, rfl⟩
    · exact ⟨_, step_mixslices hr (State.not_takes hv) hp, rfl, rfl⟩
    · exact ⟨_, step_shiftplanes hr (State.not_takes hv) hp, rfl, rfl⟩
  · exact ⟨_, step_addconstant hr (State.not_takes hv) hp, phaseAfterRound_of_ne hi, rfl⟩
  · refine ⟨_, step_addconstant hr (State.not_takes hv) hp, ?_, ?_⟩ <;> rw [hi] <;> rfl
  · obtain ⟨_, hy, hv⟩ := ht
    have h6 : s.engine.phaseReserved = false := by rw [Engine.phaseReserved, hp]; rfl
    exact ⟨_, step_take hr h6 hv hy, rfl, rfl⟩

end Sys2Proof
end

section
/-! The microprogram of a call: its entries by number (R171), what a step does at an entry, the run from one entry to a later one,
and the statements on a call's length and its result. -/

namespace Sys2Proof.Machine

/-- `PH` before entry `k` of the microprogram, `k` in 1 to 65 (R171). -/
def entryPhase (k : Nat) : BitVec 3 := if k = 65 then 5 else BitVec.ofNat 3 (1 + (k - 1) % 4)

/-- `RND` before entry `k` of the microprogram, `k` in 1 to 65 (R171). -/
def entryRound (k : Nat) : BitVec 4 := BitVec.ofNat 4 ((k - 1) / 4)

/-- Entry `1 + 4i + p` is the `p`-th micro-operation of round `i` (R171). -/
theorem entry_of_round (i : Fin 16) (p : Fin 4) :
    entryPhase (1 + 4 * i.val + p.val) = BitVec.ofNat 3 (1 + p.val) ∧
      entryRound (1 + 4 * i.val + p.val) = BitVec.ofNat 4 i.val := by
  have hlast : ¬1 + 4 * i.val + p.val = 65 := by omega
  have hphase : (1 + 4 * i.val + p.val - 1) % 4 = p.val := by omega
  have hround : (1 + 4 * i.val + p.val - 1) / 4 = i.val := by omega
  rw [entryPhase, entryRound, if_neg hlast, hphase, hround]
  exact ⟨rfl, rfl⟩

/-- Every `(PH, RND)` with `PH` in 1 to 4 is that of the entry `4 * RND + PH` (R171). -/
theorem entry_of_uPC {ph : BitVec 3} (i : BitVec 4) (h1 : 1 ≤ ph.toNat) (h4 : ph.toNat ≤ 4) :
    ph = entryPhase (4 * i.toNat + ph.toNat) ∧ i = entryRound (4 * i.toNat + ph.toNat) := by
  have h := entry_of_round ⟨i.toNat, i.isLt⟩ ⟨ph.toNat - 1, by omega⟩
  have hk : 1 + 4 * i.toNat + (ph.toNat - 1) = 4 * i.toNat + ph.toNat := by omega
  have hp : 1 + (ph.toNat - 1) = ph.toNat := by omega
  simp only [hk, hp, BitVec.ofNat_toNat, BitVec.setWidth_eq] at h
  exact ⟨h.1.symm, h.2.symm⟩

/-- No entry is at `PH = 0` (R171). -/
theorem entryPhase_ne_zero : ∀ k ≤ 65, entryPhase k ≠ 0 := by decide

/-- From each entry before the last, the entry its control transfer leads to is the next one in number (R170, R171). -/
theorem entry_succ : ∀ k < 65, 1 ≤ k →
    (entryPhase k = 1 ∧ entryPhase (k + 1) = 2 ∧ entryRound (k + 1) = entryRound k) ∨
    (entryPhase k = 2 ∧ entryPhase (k + 1) = 3 ∧ entryRound (k + 1) = entryRound k) ∨
    (entryPhase k = 3 ∧ entryPhase (k + 1) = 4 ∧ entryRound (k + 1) = entryRound k) ∨
    (entryPhase k = 4 ∧ entryPhase (k + 1) = phaseAfterRound (entryRound k) ∧ entryRound (k + 1) = entryRound k + 1) := by
  decide

/-- The engine is about to execute entry `k` of the microprogram, with no response waiting (R167, R171). -/
structure State.AtEntry (s : State) (k : Nat) : Prop where
  phase : s.engine.ph = entryPhase k
  round : s.engine.rnd = entryRound k
  noResponse : s.engine.rspValid = false

/-- `G` is what the call `PERMUTE x` holds at the engine's `(PH, RND)` (R180). -/
def State.Computes (s : State) (x : Nat) : Prop := s.engine.g = gridAt Config.params s.engine.ph s.engine.rnd x

/-- ADDCONSTANT leads to the grid of the entry after it, in the last round and before it (R170, R180). -/
theorem gridAt_phaseAfterRound (P : Params) (i : BitVec 4) (x : Nat) :
    gridAt P (phaseAfterRound i) (i + 1) x = addConstant P i (gridAt P 4 i x) := by
  by_cases h : i = 15
  · rw [h, phaseAfterRound_last, gridAt_last_round]
  · rw [phaseAfterRound_of_ne h, gridAt_next_round P x i h]

variable {s : State} {k : Nat}

/-- The accepting step of a valid PERMUTE leads to entry 1 of its operand's call (R110, R171). -/
theorem State.startsCall.step_entry (h : s.startsCall) :
    ∃ t, step s = .next t ∧ t.AtEntry 1 ∧ t.inputs = s.inputs.tail ∧ t.Computes s.port.cmdData := by
  have ⟨⟨_, _, _, hv⟩, _⟩ := h
  refine ⟨_, step_load h, ⟨?_, ?_, ?_⟩, ?_, ?_⟩
  · rw [State.advance_engine, State.loadOperand_engine]; rfl
  · rw [State.advance_engine, State.loadOperand_engine]; rfl
  · rw [State.advance_engine, State.loadOperand_engine, hv]
  · rw [State.advance_inputs, State.loadOperand_inputs]
  · rw [State.Computes, State.advance_engine, State.loadOperand_engine, gridAt_start]

/-- A step at an entry before the last leads to the next entry of the same call (R170, R171). -/
theorem State.AtEntry.step_entry (h : s.AtEntry k) (h1 : 1 ≤ k) (hk : k < 65) (hr : s.port.rst = false) :
    ∃ t, step s = .next t ∧ t.AtEntry (k + 1) ∧ t.inputs = s.inputs.tail ∧ ∀ x, s.Computes x → t.Computes x := by
  obtain ⟨hp, hi, hv⟩ := h
  have ht := State.not_takes hv
  unfold State.Computes
  rcases entry_succ k hk h1 with ⟨e, e', ei⟩ | ⟨e, e', ei⟩ | ⟨e, e', ei⟩ | ⟨e, e', ei⟩ <;> rw [e] at hp <;> rw [hp]
  · refine ⟨_, step_subrows hr ht hp, ⟨e'.symm, hi.trans ei.symm, hv⟩, rfl, fun x hg => ?_⟩
    simp only [hg, gridAt_mixslices]
  · refine ⟨_, step_mixslices hr ht hp, ⟨e'.symm, hi.trans ei.symm, hv⟩, rfl, fun x hg => ?_⟩
    simp only [hg, gridAt_shiftplanes]
  · refine ⟨_, step_shiftplanes hr ht hp, ⟨e'.symm, hi.trans ei.symm, hv⟩, rfl, fun x hg => ?_⟩
    simp only [hg, gridAt_addconstant]
  · refine ⟨_, step_addconstant hr ht hp, ⟨?_, ?_, hv⟩, rfl, fun x hg => ?_⟩
    · simp only [e', hi]
    · simp only [ei, hi]
    · simp only [hg, gridAt_phaseAfterRound]

/-- From an entry, `j` reset-free steps lead to the entry `j` further on, of the same call (R171). -/
theorem State.AtEntry.run {m : Nat} (j : Nat) {s : State} {k : Nat} (h : s.AtEntry k) (h1 : 1 ≤ k) (hk : k + j ≤ 65)
    (hn : s.noResetFor (j + m)) :
    ∃ t, runSteps j s = .next t ∧ t.AtEntry (k + j) ∧ t.noResetFor m ∧ ∀ x, s.Computes x → t.Computes x := by
  induction j generalizing s k with
  | zero => exact ⟨s, rfl, h, by rwa [Nat.zero_add] at hn, fun _ hx => hx⟩
  | succ j ih =>
    rw [Nat.add_right_comm] at hn
    obtain ⟨u, hu, hentry, hinputs, hx⟩ := h.step_entry h1 (by omega) (State.noResetFor_port hn)
    obtain ⟨t, ht, hentry', hn', hx'⟩ := ih hentry (by omega) (by omega) (State.noResetFor_tail hn hinputs)
    rw [Nat.add_right_comm] at hentry'
    exact ⟨t, (runSteps_succ hu).trans ht, hentry', hn', fun x h => hx' x (hx x h)⟩

/-- From the accepting step of a valid PERMUTE, `1 + j` reset-free steps lead to entry `1 + j` of its call (R171). -/
theorem State.startsCall.run {m : Nat} (h : s.startsCall) {j : Nat} (hj : j ≤ 64) (hn : s.noResetFor (1 + j + m)) :
    ∃ t, runSteps (1 + j) s = .next t ∧ t.AtEntry (1 + j) ∧ t.noResetFor m ∧ t.Computes s.port.cmdData := by
  have hn' : s.noResetFor (j + m + 1) := by rwa [show 1 + j + m = j + m + 1 by omega] at hn
  obtain ⟨u, hu, hentry, hinputs, hx⟩ := h.step_entry
  obtain ⟨t, ht, hentry', hn'', hx'⟩ := hentry.run j le_rfl (by omega) (State.noResetFor_tail hn' hinputs)
  refine ⟨t, ?_, hentry', hn'', hx' _ hx⟩
  rw [Nat.add_comm 1 j, runSteps_succ hu, ht]

/-- The step at the last entry is STORE (R112, R170). -/
theorem State.AtEntry.step_last (h : s.AtEntry 65) (hn : s.noResetFor 1) :
    step s = .next { s with
      engine := { s.engine with
        rspValid := true, rspStatus := 0, rspData := packBytes (storeBytes s.engine.g), ph := 0 }
      inputs := s.inputs.tail } :=
  step_store (State.noResetFor_port hn) (State.not_takes h.noResponse) h.phase

/-- What `G` holds at the last entry of a call is the result of the rounds, so STORE emits the permutation (R180). -/
theorem State.Computes.store {x : Nat} (h : s.Computes x) (hp : s.engine.ph = 5) :
    storeBytes s.engine.g = permuteBytes Config.params x := by
  rw [permuteBytes, h, hp, gridAt_store]

/-- The whole call: 66 steps after a valid PERMUTE is presented, the engine is at `(0, 0)` and its response is `OK` with the
permutation of the operand (R171, R181). -/
theorem State.startsCall.responds (h : s.startsCall) (hn : s.noResetFor 66) :
    ∃ t, runSteps 66 s = .next t ∧ t.engine.ph = 0 ∧ t.engine.rnd = 0 ∧ t.engine.rspValid = true ∧
      t.engine.rspStatus = 0 ∧ t.engine.rspData = packBytes (permuteBytes Config.params s.port.cmdData) := by
  obtain ⟨u, hu, hentry, hn', hx⟩ := h.run (j := 64) (m := 1) le_rfl hn
  refine ⟨_, (runSteps_add (k := 1) hu).trans (runSteps_succ (hentry.step_last hn')), rfl, hentry.round, rfl, rfl, ?_⟩
  simp only [hx.store hentry.phase]

/-- From entry `k` the call takes `66 - k` steps, and until then the engine is in the call (R171, R172). -/
theorem State.AtEntry.ends (h : s.AtEntry k) (h1 : 1 ≤ k) (hk : k ≤ 65) (hn : s.noResetFor (66 - k)) :
    (∃ t, runSteps (66 - k) s = .next t ∧ t.engine.ph = 0 ∧ t.engine.rspValid = true) ∧
      ∀ j < 66 - k, ∃ t, runSteps j s = .next t ∧ t.engine.ph ≠ 0 ∧ t.engine.rspValid = false := by
  constructor
  · have hsteps : 66 - k = 65 - k + 1 := by omega
    rw [hsteps] at hn ⊢
    obtain ⟨u, hu, hentry, hn', _⟩ := h.run (65 - k) h1 (by omega) hn
    rw [Nat.add_sub_cancel' hk] at hentry
    exact ⟨_, (runSteps_add hu).trans (runSteps_succ (hentry.step_last hn')), rfl, rfl⟩
  · intro j hj
    rw [← Nat.add_sub_cancel' hj.le] at hn
    obtain ⟨t, ht, hentry, _⟩ := h.run j h1 (by omega) hn
    exact ⟨t, ht, by rw [hentry.phase]; exact entryPhase_ne_zero _ (by omega), hentry.noResponse⟩

end Sys2Proof.Machine

namespace Sys2Proof
open Machine

/-- Settles O37: the run through the entries, each entry's `(PH, RND)` read off its number. -/
theorem microprogramHasSixtySixEntries : Obligations.MicroprogramHasSixtySixEntries := by
  intro s ha ho hc hx hn
  have hcall : s.startsCall := ⟨ha, ho, hc, hx⟩
  refine ⟨fun i p => ?_, ?_, ?_⟩
  · have hsteps : 66 = 1 + (4 * i.val + p.val) + (65 - (4 * i.val + p.val)) := by omega
    rw [hsteps] at hn
    obtain ⟨t, ht, hentry, _⟩ := hcall.run (by omega) hn
    obtain ⟨hphase, hround⟩ := entry_of_round i p
    rw [← Nat.add_assoc] at ht hentry
    exact ⟨t, ht, hentry.phase.trans hphase, hentry.round.trans hround, hentry.noResponse⟩
  · obtain ⟨t, ht, hentry, _⟩ := hcall.run (j := 64) (m := 1) le_rfl hn
    exact ⟨t, ht, hentry.phase, hentry.round, hentry.noResponse⟩
  · obtain ⟨t, ht, hph, hrnd, hv, _⟩ := hcall.responds hn
    exact ⟨t, ht, hph, hrnd, hv⟩

/-- Settles O38: from `PH = 5` the one step is STORE; from `PH` in 1 to 4 the call is at an entry. -/
theorem terminationInAFixedNumberOfSteps : Obligations.TerminationInAFixedNumberOfSteps := by
  intro s h1 h5 hv steps hn
  by_cases hp : s.engine.ph = 5
  · have hsteps : steps = 1 := if_pos hp
    rw [hsteps] at hn ⊢
    refine ⟨⟨_, runSteps_succ (step_store (State.noResetFor_port hn) (State.not_takes hv) hp), rfl, rfl⟩, fun k hk => ?_⟩
    obtain rfl := Nat.lt_one_iff.1 hk
    exact ⟨s, rfl, by rw [hp]; decide, hv⟩
  · have h4 : s.engine.ph.toNat ≤ 4 := by
      have hne : s.engine.ph.toNat ≠ 5 := fun h => hp (BitVec.eq_of_toNat_eq h)
      omega
    have hrnd := s.engine.rnd.isLt
    have hsteps : steps = 66 - (4 * s.engine.rnd.toNat + s.engine.ph.toNat) := by
      rw [show steps = _ from if_neg hp]; omega
    obtain ⟨hphase, hround⟩ := entry_of_uPC s.engine.rnd h1 h4
    rw [hsteps] at hn ⊢
    exact State.AtEntry.ends ⟨hphase, hround, hv⟩ (by omega) (by omega) hn

/-- Settles O40: both responses are `OK` with the permutation of the one operand. -/
theorem permuteIsDeterministic : Obligations.PermuteIsDeterministic := by
  intro s t hs ht hos hot hcs hct hx hlt hns hnt
  obtain ⟨s', hs', _, _, hvs, hss, hds⟩ := State.startsCall.responds ⟨hs, hos, hcs, hlt⟩ hns
  obtain ⟨t', ht', _, _, hvt, hst, hdt⟩ := State.startsCall.responds ⟨ht, hot, hct, hx ▸ hlt⟩ hnt
  exact ⟨s', t', hs', ht', hvs, hvt, hss.trans hst.symm, by rw [hds, hdt, hx]⟩

end Sys2Proof
end

section
/-! The decoder and the encoder against each other (R72, R73, R79): which format a length selects, what a word of each format decodes
to, and the encodings' obligations. -/

namespace Sys2Proof

theorem wholeBytes_seven : wholeBytes 7 = 8 := rfl

/-- Rounding up to whole bytes adds bits only. -/
theorem le_wholeBytes (n : Nat) : n ≤ wholeBytes n := by unfold wholeBytes; omega

/-- A length of format UOP selects it (R73, R79). -/
theorem decodeWord_uop {dinW nbits : Nat} (w : Nat) (h : nbits = 7 ∨ nbits = wholeBytes 7) :
    decodeWord dinW nbits w = decodeUopWord w := if_pos h

/-- A length of format CMD selects it, on a bus of any legal width (R72, R79). -/
theorem decodeWord_cmd {dinW nbits : Nat} (w : Nat) (hd : 256 ≤ dinW)
    (h : nbits = dinW + 1 ∨ nbits = wholeBytes (dinW + 1)) : decodeWord dinW nbits w = decodeCmdWord dinW w := by
  have hle := le_wholeBytes (dinW + 1)
  have huop : ¬(nbits = 7 ∨ nbits = wholeBytes 7) := by rw [wholeBytes_seven]; omega
  rw [decodeWord, if_neg huop, if_pos h]

/-! Format CMD. -/

/-- No word of `1 + DIN_W` bits is rejected (R72, R78). -/
theorem decodeCmdWord_of_lt {dinW w : Nat} (h : w < 2 ^ (dinW + 1)) :
    decodeCmdWord dinW w = .ok (decodeCmd (BitVec.ofNat 1 (w >>> dinW)) (w % 2 ^ dinW)) := if_pos h

/-- A CMD word is `{op, data}` (R72). -/
theorem encode_decodeCmd (dinW : Nat) (op : BitVec 1) (data : Nat) :
    encode dinW (decodeCmd op data) = op.toNat * 2 ^ dinW + data := by
  rcases BitVec.eq_zero_or_eq_one op with rfl | rfl <;> simp [decodeCmd, encode, Nat.shiftLeft_eq]

theorem encodedBits_decodeCmd (dinW : Nat) (op : BitVec 1) (data : Nat) :
    encodedBits dinW (decodeCmd op data) = dinW + 1 := by
  rcases BitVec.eq_zero_or_eq_one op with rfl | rfl <;> rfl

theorem wellFormed_decodeCmd {dinW : Nat} (op : BitVec 1) {data : Nat} (h : data < 2 ^ dinW) :
    (decodeCmd op data).wellFormed dinW = true := by
  rcases BitVec.eq_zero_or_eq_one op with rfl | rfl <;> exact decide_eq_true h

/-- Writing `{op, data}` as one word and reading it back (R72). -/
theorem decodeCmdWord_word {dinW data : Nat} (op : BitVec 1) (h : data < 2 ^ dinW) :
    decodeCmdWord dinW (op.toNat * 2 ^ dinW + data) = .ok (decodeCmd op data) := by
  have hop : op.toNat < 2 := op.isLt
  have hlt : op.toNat * 2 ^ dinW + data < 2 ^ (dinW + 1) := by
    have hle : op.toNat * 2 ^ dinW ≤ 1 * 2 ^ dinW := Nat.mul_le_mul_right _ (by omega)
    rw [Nat.pow_succ]
    omega
  have hhigh : (op.toNat * 2 ^ dinW + data) >>> dinW = op.toNat := by
    rw [Nat.shiftRight_eq_div_pow, Nat.add_comm, Nat.add_mul_div_right _ _ (Nat.two_pow_pos _), Nat.div_eq_of_lt h,
      Nat.zero_add]
  rw [decodeCmdWord_of_lt hlt, hhigh, Nat.mul_add_mod_self_right, Nat.mod_eq_of_lt h, BitVec.ofNat_toNat,
    BitVec.setWidth_eq]

/-- A CMD word that decodes is the word of what it decodes to (R72). -/
theorem encode_of_decodeCmdWord {dinW w : Nat} {i : Instr} (h : decodeCmdWord dinW w = .ok i) :
    i.wellFormed dinW = true ∧ encode dinW i = w ∧ encodedBits dinW i = dinW + 1 := by
  by_cases hw : w < 2 ^ (dinW + 1)
  · rw [decodeCmdWord_of_lt hw] at h
    cases h
    refine ⟨wellFormed_decodeCmd _ (Nat.mod_lt _ (Nat.two_pow_pos _)), ?_, encodedBits_decodeCmd _ _ _⟩
    have hop : w / 2 ^ dinW < 2 ^ 1 := Nat.div_lt_of_lt_mul (by rwa [← Nat.pow_add])
    rw [encode_decodeCmd, BitVec.toNat_ofNat, Nat.shiftRight_eq_div_pow, Nat.mod_eq_of_lt hop, Nat.div_add_mod']
  · rw [decodeCmdWord, if_neg hw] at h
    cases h

/-! Format UOP. -/

/-- A UOP word of seven bits is decoded from its two fields (R73). -/
theorem decodeUopWord_of_lt {w : Nat} (h : w < 2 ^ 7) :
    decodeUopWord w = decodeUop (BitVec.ofNat 3 (w >>> 4)) (BitVec.ofNat 4 w) := if_pos h

/-- The phases with an operation are 0 to 5, and the operation's word is `{ph, rnd}` (R73, R74). -/
theorem decodeUop_ok {dinW : Nat} {ph : BitVec 3} {rnd : BitVec 4} {i : Instr} (h : decodeUop ph rnd = .ok i) :
    i.wellFormed dinW = true ∧ encode dinW i = uopWord ph.toNat rnd.toNat ∧ encodedBits dinW i = 7 := by
  unfold decodeUop at h
  split at h <;> cases h <;> refine ⟨rfl, ?_, rfl⟩ <;> simp only [encode, *]

/-- Exactly the phases 6 and 7 are reserved (R74, R78). -/
theorem decodeUop_reserved_iff (ph : BitVec 3) (rnd : BitVec 4) :
    decodeUop ph rnd = .error .reservedPhase ↔ ph = 6 ∨ ph = 7 := by
  revert ph rnd; decide

/-- Rejection as a reserved phase is the only one (R74, R78). -/
theorem decodeUop_ok_of_ne (ph : BitVec 3) (rnd : BitVec 4) (h : ¬(ph = 6 ∨ ph = 7)) : ∃ i, decodeUop ph rnd = .ok i := by
  rw [← decodeUop_reserved_iff ph rnd] at h
  cases hd : decodeUop ph rnd with
  | ok i => exact ⟨i, rfl⟩
  | error e =>
    refine absurd ?_ h
    unfold decodeUop at hd ⊢
    split at hd <;> cases hd
    rfl

/-- Writing `{ph, rnd}` as one word and reading it back (R73). -/
theorem decodeUopWord_word (ph : BitVec 3) (rnd : BitVec 4) :
    decodeUopWord (uopWord ph.toNat rnd.toNat) = decodeUop ph rnd := by
  revert ph rnd; decide

/-- A word of seven bits is `{ph, rnd}` of its own fields (R73). -/
theorem uopWord_fields : ∀ w < 2 ^ 7, uopWord (BitVec.ofNat 3 (w >>> 4)).toNat (BitVec.ofNat 4 w).toNat = w := by
  intro w hw
  simp only [uopWord, BitVec.toNat_ofNat, Nat.shiftLeft_eq, Nat.shiftRight_eq_div_pow]
  omega

/-- A UOP word that decodes is the word of what it decodes to (R73). -/
theorem encode_of_decodeUopWord {dinW w : Nat} {i : Instr} (h : decodeUopWord w = .ok i) :
    i.wellFormed dinW = true ∧ encode dinW i = w ∧ encodedBits dinW i = 7 := by
  by_cases hw : w < 2 ^ 7
  · rw [decodeUopWord_of_lt hw] at h
    have ⟨hwf, hword, hbits⟩ := decodeUop_ok (dinW := dinW) h
    exact ⟨hwf, hword.trans (uopWord_fields w hw), hbits⟩
  · rw [decodeUopWord, if_neg hw] at h
    cases h

/-! Both formats. -/

/-- Every operation is what the ports or `(PH, RND)` encode, in the format of its length (R72 to R74). -/
theorem Instr.format (dinW : Nat) (i : Instr) :
    (encodedBits dinW i = dinW + 1 ∧ ∃ op data, i = decodeCmd op data) ∨
      (encodedBits dinW i = 7 ∧ ∃ ph rnd, decodeUop ph rnd = .ok i) := by
  cases i with
  | configure cfg => exact .inl ⟨rfl, 0, cfg, rfl⟩
  | permute x => exact .inl ⟨rfl, 1, x, rfl⟩
  | load rnd => exact .inr ⟨rfl, 0, rnd, rfl⟩
  | subrows rnd => exact .inr ⟨rfl, 1, rnd, rfl⟩
  | mixslices rnd => exact .inr ⟨rfl, 2, rnd, rfl⟩
  | shiftplanes rnd => exact .inr ⟨rfl, 3, rnd, rfl⟩
  | addconstant rnd => exact .inr ⟨rfl, 4, rnd, rfl⟩
  | store rnd => exact .inr ⟨rfl, 5, rnd, rfl⟩

theorem lt_of_wellFormed_decodeCmd {dinW : Nat} {op : BitVec 1} {data : Nat}
    (h : (decodeCmd op data).wellFormed dinW = true) : data < 2 ^ dinW := by
  rcases BitVec.eq_zero_or_eq_one op with rfl | rfl <;> exact of_decide_eq_true h

/-- Decode of encode is the identity, at the format's own length and at that length in whole bytes (R72 to R74; log 18). -/
theorem decodeWord_encode {dinW nbits : Nat} {i : Instr} (hd : 256 ≤ dinW) (hwf : i.wellFormed dinW = true)
    (hn : nbits = encodedBits dinW i ∨ nbits = wholeBytes (encodedBits dinW i)) :
    decodeWord dinW nbits (encode dinW i) = .ok i := by
  rcases i.format dinW with ⟨hbits, op, data, rfl⟩ | ⟨hbits, ph, rnd, hi⟩ <;> rw [hbits] at hn
  · rw [decodeWord_cmd _ hd hn, encode_decodeCmd, decodeCmdWord_word op (lt_of_wellFormed_decodeCmd hwf)]
  · obtain ⟨_, hword, _⟩ := decodeUop_ok (dinW := dinW) hi
    rw [decodeWord_uop _ hn, hword, decodeUopWord_word, hi]

/-- Settles O1: a word in a length of its operation's format is read in that format, which undoes the writing. -/
theorem encodeDecodeRoundTrip : Obligations.EncodeDecodeRoundTrip := fun _ _ hd hwf =>
  ⟨decodeWord_encode hd hwf (.inl rfl), decodeWord_encode hd hwf (.inr rfl)⟩

/-- Settles O2: the length selects the format, and in either format what decodes is its own encoding. -/
theorem decodedWordIsItsEncoding : Obligations.DecodedWordIsItsEncoding := by
  intro dinW nbits w i hd h
  by_cases huop : nbits = 7 ∨ nbits = wholeBytes 7
  · rw [decodeWord_uop w huop] at h
    have ⟨hwf, hword, hbits⟩ := encode_of_decodeUopWord (dinW := dinW) h
    exact ⟨hwf, hword, by rwa [hbits]⟩
  by_cases hcmd : nbits = dinW + 1 ∨ nbits = wholeBytes (dinW + 1)
  · rw [decodeWord_cmd w hd hcmd] at h
    have ⟨hwf, hword, hbits⟩ := encode_of_decodeCmdWord h
    exact ⟨hwf, hword, by rwa [hbits]⟩
  · rw [decodeWord, if_neg huop, if_neg hcmd] at h
    cases h

/-- The phase field of a seven-bit word, as the number above the low four bits (R73). -/
theorem phaseField_eq_iff {w p : Nat} (hw : w < 2 ^ 7) (hp : p < 8) :
    BitVec.ofNat 3 (w >>> 4) = BitVec.ofNat 3 p ↔ w / 2 ^ 4 = p := by
  rw [← BitVec.toNat_inj, BitVec.toNat_ofNat, BitVec.toNat_ofNat, Nat.shiftRight_eq_div_pow]
  omega

/-- Settles O3: a seven-bit word is decoded from its two fields, of which `ph` decides; a CMD word is never rejected. -/
theorem onlyReservedPhasesAreRejected : Obligations.OnlyReservedPhasesAreRejected := by
  refine ⟨fun w hw => ?_, fun w hw hph => ?_, fun dinW w hd hw => ?_⟩
  · rw [decodeWord_uop w (.inl rfl), decodeUopWord_of_lt hw, decodeUop_reserved_iff, ← phaseField_eq_iff hw (by decide),
      ← phaseField_eq_iff hw (by decide)]
    rfl
  · rw [decodeWord_uop w (.inl rfl), decodeUopWord_of_lt hw]
    rw [← phaseField_eq_iff hw (by decide), ← phaseField_eq_iff hw (by decide)] at hph
    exact decodeUop_ok_of_ne _ _ hph
  · exact ⟨_, (decodeWord_cmd w hd (.inl rfl)).trans (decodeCmdWord_of_lt hw)⟩

/-- Settles O4: the decoder evaluated on the ten words. -/
theorem tableWordsDecode : Obligations.TableWordsDecode := by
  unfold Obligations.TableWordsDecode
  decide

end Sys2Proof
end

section
/-! What a step can do, one move per kind of edge, forwards and backwards: `step` answers a next state exactly where a move leads to
it, and faults everywhere else. The four layers are one move. -/

namespace Sys2Proof.Machine

/-- What the layer at phase `ph`, in 1 to 4, makes of `G` in round `i` (R120, R130, R140, R151). -/
def layerGrid (P : Params) (ph : BitVec 3) (i : BitVec 4) (g : Grid) : Grid :=
  match ph.toNat with
  | 1 => subRows g
  | 2 => mixSlices P g
  | 3 => shiftPlanes P i g
  | _ => addConstant P i g

/-- `PH` after the layer at phase `ph` in round `i` (R170). -/
def phaseAfter (ph : BitVec 3) (i : BitVec 4) : BitVec 3 := if ph = 4 then phaseAfterRound i else ph + 1

/-- `RND` after the layer at phase `ph` in round `i` (R170). -/
def roundAfter (ph : BitVec 3) (i : BitVec 4) : BitVec 4 := if ph = 4 then i + 1 else i

theorem layerGrid_subrows (P : Params) (i : BitVec 4) (g : Grid) : layerGrid P 1 i g = subRows g := rfl
theorem layerGrid_mixslices (P : Params) (i : BitVec 4) (g : Grid) : layerGrid P 2 i g = mixSlices P g := rfl
theorem layerGrid_shiftplanes (P : Params) (i : BitVec 4) (g : Grid) : layerGrid P 3 i g = shiftPlanes P i g := rfl
theorem layerGrid_addconstant (P : Params) (i : BitVec 4) (g : Grid) : layerGrid P 4 i g = addConstant P i g := rfl

/-- The phases of the four layers. -/
theorem layerPhase_cases : ∀ ph : BitVec 3, 1 ≤ ph.toNat → ph.toNat ≤ 4 → ph = 1 ∨ ph = 2 ∨ ph = 3 ∨ ph = 4 := by
  decide

/-- A layer leads to a layer or to STORE, which is reached with `RND = 0` (R170). -/
theorem phaseAfter_layer : ∀ (ph : BitVec 3) (i : BitVec 4), 1 ≤ ph.toNat → ph.toNat ≤ 4 →
    phaseAfter ph i ≠ 0 ∧ (phaseAfter ph i).toNat ≤ 5 ∧ (phaseAfter ph i = 5 → roundAfter ph i = 0) := by decide

/-- Only ADDCONSTANT moves the round counter (R170). -/
theorem roundAfter_of_ne {ph : BitVec 3} (i : BitVec 4) (h : ph ≠ 4) : roundAfter ph i = i := if_neg h

/-- The layer at the engine's own `(PH, RND)`: `G` and the control transfer (R170). -/
def State.runLayer (s : State) : State :=
  (s.setGrid (layerGrid Config.params s.engine.ph s.engine.rnd s.engine.g)).setUPC
    (phaseAfter s.engine.ph s.engine.rnd) (roundAfter s.engine.ph s.engine.rnd)

/-- STORE: the response and the control transfer (R112, R170). -/
def State.runStore (s : State) : State :=
  (s.respond .ok (packBytes (storeBytes s.engine.g))).setUPC 0 s.engine.rnd

@[simp] theorem State.runLayer_engine (s : State) : s.runLayer.engine = { s.engine with
    g := layerGrid Config.params s.engine.ph s.engine.rnd s.engine.g
    ph := phaseAfter s.engine.ph s.engine.rnd
    rnd := roundAfter s.engine.ph s.engine.rnd } := rfl
@[simp] theorem State.runLayer_inputs (s : State) : s.runLayer.inputs = s.inputs := rfl
@[simp] theorem State.runLayer_taken (s : State) : s.runLayer.taken = s.taken := rfl

@[simp] theorem State.runStore_engine (s : State) : s.runStore.engine = { s.engine with
    rspValid := true, rspStatus := 0, rspData := packBytes (storeBytes s.engine.g), ph := 0 } := rfl
@[simp] theorem State.runStore_inputs (s : State) : s.runStore.inputs = s.inputs := rfl
@[simp] theorem State.runStore_taken (s : State) : s.runStore.taken = s.taken := rfl

variable {s t : State}

/-- The step at a layer's phase (R80, R170). -/
theorem step_layer (hr : s.port.rst = false) (ht : ¬s.takes) (h1 : 1 ≤ s.engine.ph.toNat) (h4 : s.engine.ph.toNat ≤ 4) :
    step s = .next s.runLayer.advance := by
  rw [State.runLayer]
  rcases layerPhase_cases _ h1 h4 with hp | hp | hp | hp <;> rw [hp]
  · rw [step_subrows hr ht hp, layerGrid_subrows, State.setGrid_setUPC]; rfl
  · rw [step_mixslices hr ht hp, layerGrid_mixslices, State.setGrid_setUPC]; rfl
  · rw [step_shiftplanes hr ht hp, layerGrid_shiftplanes, State.setGrid_setUPC]; rfl
  · rw [step_addconstant hr ht hp, layerGrid_addconstant, State.setGrid_setUPC]; rfl

/-! What the conditions of an edge say of the engine. -/

theorem State.accepts.idle (h : s.accepts) : s.engine.ph = 0 := by
  obtain ⟨_, _, hp, _⟩ := h
  exact hp

theorem State.accepts.noResponse (h : s.accepts) : s.engine.rspValid = false := by
  obtain ⟨_, _, _, hv⟩ := h
  exact hv

theorem State.startsCall.accepts (h : s.startsCall) : s.accepts := by
  obtain ⟨ha, _⟩ := h
  exact ha

theorem State.takes.rspValid (h : s.takes) : s.engine.rspValid = true := by
  obtain ⟨_, _, hv⟩ := h
  exact hv

/-- The moves of the machine: what an edge leads to, under the condition it happens (R80, R166, R220). -/
inductive Move (s : State) : State → Prop
  | reset (hr : s.port.rst = true) : Move s s.resetEdge.advance
  | take (h6 : s.engine.phaseReserved = false) (ht : s.takes) : Move s s.takeResponse.advance
  | configure (ha : s.accepts) (ho : s.port.cmdOp = 0) :
      Move s (s.configure Config.params.cfgOk.toNat s.port.cmdData).advance
  | reject (ha : s.accepts) (ho : s.port.cmdOp = 1) (hwhy : s.engine.configured = false ∨ 2 ^ 256 ≤ s.port.cmdData) :
      Move s (s.permute s.port.cmdData).advance
  | load (h : s.startsCall) : Move s (s.loadOperand s.port.cmdData).advance
  | wait (hr : s.port.rst = false) (hp : s.engine.ph = 0) (ha : ¬s.accepts) (ht : ¬s.takes) : Move s s.advance
  | layer (hr : s.port.rst = false) (ht : ¬s.takes) (h1 : 1 ≤ s.engine.ph.toNat) (h4 : s.engine.ph.toNat ≤ 4) :
      Move s s.runLayer.advance
  | store (hr : s.port.rst = false) (ht : ¬s.takes) (hp : s.engine.ph = 5) :
      Move s s.runStore.advance

/-- A step makes every move. -/
theorem Move.step (h : Move s t) : Machine.step s = .next t := by
  cases h with
  | reset hr => exact step_reset hr
  | take h6 ht =>
    have ⟨hr, hy, hv⟩ := ht
    exact step_take hr h6 hv hy
  | configure ha ho => exact step_configure ha ho
  | reject ha ho hwhy => exact step_permute ha ho
  | load h => exact step_load h
  | wait hr hp ha ht => exact step_wait hr hp ha ht
  | layer hr ht h1 h4 => exact step_layer hr ht h1 h4
  | store hr ht hp => exact step_store hr ht hp

/-- An accepted command is answered at once or starts a call (R161, R162). -/
theorem State.accepts.answersAtOnce_or_startsCall (ha : s.accepts) : s.answersAtOnce ∨ s.startsCall := by
  by_cases hwhy : s.port.cmdOp = 0 ∨ s.engine.configured = false ∨ 2 ^ 256 ≤ s.port.cmdData
  · exact .inl ⟨ha, hwhy⟩
  · obtain ⟨ho, hc, hx⟩ : s.port.cmdOp ≠ 0 ∧ s.engine.configured ≠ false ∧ ¬2 ^ 256 ≤ s.port.cmdData :=
      ⟨fun h => hwhy (.inl h), fun h => hwhy (.inr (.inl h)), fun h => hwhy (.inr (.inr h))⟩
    exact .inr ⟨ha, (BitVec.eq_zero_or_eq_one _).resolve_left ho, Bool.eq_true_of_not_eq_false hc, Nat.lt_of_not_le hx⟩

/-- A command answered at once is a CONFIGURE or a rejected PERMUTE (R161, R162). -/
theorem State.answersAtOnce.move (h : s.answersAtOnce) :
    Move s (s.configure Config.params.cfgOk.toNat s.port.cmdData).advance ∨ Move s (s.permute s.port.cmdData).advance := by
  obtain ⟨ha, hwhy⟩ := h
  rcases BitVec.eq_zero_or_eq_one s.port.cmdOp with ho | ho
  · exact .inl (.configure ha ho)
  · exact .inr (.reject ha ho (hwhy.resolve_left (by rw [ho]; decide)))

/-- The reserved phases are 6 and 7 (R29). -/
theorem Engine.phaseReserved_iff (e : Engine) : e.phaseReserved = true ↔ e.ph = 6 ∨ e.ph = 7 := by
  rw [Engine.phaseReserved]
  generalize e.ph = ph
  revert ph; decide

/-- From every state a move leads on, unless the phase is reserved and no reset falls on the edge (R29, R80, R220). -/
theorem move_or_reserved (s : State) : (∃ t, Move s t) ∨ s.port.rst = false ∧ s.engine.phaseReserved = true := by
  cases hr : s.port.rst with
  | true => exact .inl ⟨_, .reset hr⟩
  | false =>
    cases h6 : s.engine.phaseReserved with
    | true => exact .inr ⟨rfl, rfl⟩
    | false =>
      left
      by_cases ht : s.takes
      · exact ⟨_, .take h6 ht⟩
      by_cases hp : s.engine.ph = 0
      · by_cases ha : s.accepts
        · rcases ha.answersAtOnce_or_startsCall with h | h
          · exact h.move.elim (fun h => ⟨_, h⟩) (fun h => ⟨_, h⟩)
          · exact ⟨_, .load h⟩
        · exact ⟨_, .wait hr hp ha ht⟩
      by_cases hp5 : s.engine.ph = 5
      · exact ⟨_, .store hr ht hp5⟩
      · have hne0 : s.engine.ph.toNat ≠ 0 := fun h => hp (BitVec.eq_of_toNat_eq h)
        have hne5 : s.engine.ph.toNat ≠ 5 := fun h => hp5 (BitVec.eq_of_toNat_eq h)
        rw [Engine.phaseReserved, decide_eq_false_iff_not] at h6
        exact ⟨_, .layer hr ht (by omega) (by omega)⟩

/-- A step that answers a next state made a move to it. -/
theorem move_of_step (h : step s = .next t) : Move s t := by
  rcases move_or_reserved s with ⟨u, hu⟩ | ⟨hr, h6⟩
  · obtain rfl := Host.Outcome.next.inj (h.symm.trans hu.step)
    exact hu
  · rw [step_reserved hr h6] at h
    cases h

/-- Whatever `step` answers is a next state, or the fault of a reserved phase without reset (R29). -/
theorem step_next_or_fault (s : State) :
    (∃ t, step s = .next t) ∨
      (s.port.rst = false ∧ s.engine.phaseReserved = true ∧ step s = .fault (.reservedPhase s.engine.ph)) := by
  rcases move_or_reserved s with ⟨t, ht⟩ | ⟨hr, h6⟩
  · exact .inl ⟨t, ht.step⟩
  · exact .inr ⟨hr, h6, step_reserved hr h6⟩

/-- `PH = 0` is no reserved phase. -/
theorem Engine.phaseReserved_of_idle {e : Engine} (h : e.ph = 0) : e.phaseReserved = false := by
  rw [Engine.phaseReserved, h]; rfl

/-- The decoder of an edge without command, take or reset, applied to a phase of its own (R80). -/
theorem step_phase (hr : s.port.rst = false) (hv : s.engine.ph ≠ 0 → s.engine.rspValid = false) {ph : BitVec 3} {i : Instr}
    (hp : s.engine.ph = ph) (h0 : ph ≠ 0) (hd : decodeUop ph s.engine.rnd = .ok i) : step s = closeEdge (exec i s) := by
  subst hp
  exact step_uop hr h0 (State.not_takes (hv h0)) hd

/-! An engine that is not ready: what the command ports carry makes no difference (R160). -/

/-- A busy engine leaves an unaccepted CONFIGURE aside (R160). -/
theorem exec_configure_busy (cfg : Nat) (h : s.engine.cmdReady = false) : exec (.configure cfg) s = .next s := by
  rw [exec_configure, if_neg (by rw [h]; decide)]

/-- A busy engine leaves an unaccepted PERMUTE aside (R160). -/
theorem exec_permute_busy (x : Nat) (h : s.engine.cmdReady = false) : exec (.permute x) s = .next s := by
  rw [exec_permute, if_neg (by rw [h]; decide)]

/-- A busy engine accepts nothing (R160). -/
theorem State.not_accepts (h : s.engine.cmdReady = false) : ¬s.accepts := by
  rintro ⟨_, _, hp, hv⟩
  rw [(Engine.cmdReady_iff _).2 ⟨hp, hv⟩] at h
  cases h

/-- Moving from a busy engine, only the reset and take ports matter (R160). -/
theorem Move.setPort_congr {p q : PortSample} (hb : s.engine.cmdReady = false) (hr : p.rst = q.rst)
    (hy : p.rspReady = q.rspReady) (h : Move (s.setPort p) t) : Move (s.setPort q) t := by
  have htakes : (s.setPort q).takes ↔ (s.setPort p).takes := by
    simp only [State.takes, State.setPort_port, State.setPort_engine, hr, hy]
  have hbusy : ∀ r, ¬(s.setPort r).accepts := fun r => State.not_accepts hb
  cases h with
  | reset h => exact .reset (s := s.setPort q) (hr ▸ h)
  | take h6 ht => exact .take (s := s.setPort q) h6 (htakes.2 ht)
  | configure ha => exact absurd ha (hbusy p)
  | reject ha => exact absurd ha (hbusy p)
  | load h => exact absurd h.accepts (hbusy p)
  | wait h hp ha ht => exact .wait (s := s.setPort q) (hr ▸ h) hp (hbusy q) (mt htakes.1 ht)
  | layer h ht h1 h4 => exact .layer (s := s.setPort q) (hr ▸ h) (mt htakes.1 ht) h1 h4
  | store h ht hp => exact .store (s := s.setPort q) (hr ▸ h) (mt htakes.1 ht) hp

/-! Placing one word (log 17). -/

/-- A placed UOP word is run by the next step: in `(PH, RND)`, or for LOAD as the PERMUTE that performs it (R73, R74). -/
theorem step_placeUop (s : State) {w : Nat} {i : Instr}
    (hd : decodeUop (BitVec.ofNat 3 (w >>> 4)) (BitVec.ofNat 4 w) = .ok i) :
    step (s.placeUop w) = closeEdge (exec i (s.placeUop w)) := by
  rw [State.placeUop]
  generalize BitVec.ofNat 3 (w >>> 4) = ph at hd ⊢
  generalize BitVec.ofNat 4 w = rnd at hd ⊢
  by_cases hp : ph = 0
  · subst hp
    cases hd
    rw [if_pos rfl, exec_load, closeEdge_next]
    exact step_load ⟨⟨rfl, rfl, rfl, rfl⟩, rfl, rfl, Nat.mod_lt _ (Nat.two_pow_pos _)⟩
  · rw [if_neg hp]
    exact step_uop rfl hp (fun ⟨_, hy, _⟩ => Bool.false_ne_true hy) hd

/-- A placed CMD word is accepted by the next step (R72, R160). -/
theorem step_placeCmd (s : State) (w : Nat) :
    step (s.placeCmd w) =
      closeEdge (exec (decodeCmd (BitVec.ofNat 1 (w >>> 256)) (w % 2 ^ 256)) (s.placeCmd w)) :=
  step_accept (s := s.placeCmd w) ⟨rfl, rfl, rfl, rfl⟩

end Sys2Proof.Machine

namespace Sys2Proof
open Machine

/-- Settles O5: both edges run what their decoder answers. -/
theorem stepRunsDecodedOperation : Obligations.StepRunsDecodedOperation := by
  intro s
  refine ⟨fun ha t ht => ?_, fun i hr hp hnt hd t ht => ?_⟩
  · rw [step_accept ha, ht, closeEdge_next]; rfl
  · rw [step_uop hr hp hnt hd, ht, closeEdge_next]; rfl

/-- Settles O6: the accepted command, the phases one by one, the wait and the fault. -/
theorem decoderOfTheEdgeIsComplete : Obligations.DecoderOfTheEdgeIsComplete := by
  intro s hr hv
  refine ⟨fun ha ho => ?_, fun ha ho => ?_, fun hp => step_phase hr hv hp (by decide) rfl,
    fun hp => step_phase hr hv hp (by decide) rfl, fun hp => step_phase hr hv hp (by decide) rfl,
    fun hp => step_phase hr hv hp (by decide) rfl, fun hp => step_phase hr hv hp (by decide) rfl,
    fun hp ha ht => step_wait hr hp ha ht, fun hp => step_reserved hr ((Engine.phaseReserved_iff _).2 hp)⟩
  · rw [step_accept ha, ho]; rfl
  · rw [step_accept ha, ho]; rfl

/-- Settles O7: a step makes a move, or faults in a reserved phase. -/
theorem stepFaultsExactlyOnReservedPhases : Obligations.StepFaultsExactlyOnReservedPhases := by
  intro s
  refine ⟨fun f => ⟨fun h => ?_, ?_⟩, fun r h => ?_⟩
  · rcases step_next_or_fault s with ⟨t, ht⟩ | ⟨hr, h6, hf⟩
    · rw [ht] at h; cases h
    · rw [hf] at h; cases h
      exact ⟨hr, (Engine.phaseReserved_iff _).1 h6, rfl⟩
  · rintro ⟨hr, hp, rfl⟩
    exact step_reserved hr ((Engine.phaseReserved_iff _).2 hp)
  · rcases step_next_or_fault s with ⟨t, ht⟩ | ⟨_, _, hf⟩
    · rw [ht] at h; cases h
    · rw [hf] at h; cases h

/-- Settles O8: the reset edge comes before all others. -/
theorem resetEdgeResetsEveryState : Obligations.ResetEdgeResetsEveryState := fun _ hr =>
  ⟨_, step_reset hr, rfl, rfl, rfl, rfl, (Engine.cmdReady_iff _).2 ⟨rfl, rfl⟩, rfl, rfl⟩

/-- Settles O9: the reset state, register by register. -/
theorem resetStateHasTheSpecifiedValues : Obligations.ResetStateHasTheSpecifiedValues :=
  ⟨rfl, rfl, rfl, rfl, rfl, rfl⟩

/-- Settles O10: the edge is a take or, with nothing accepted while the response waits, a wait. -/
theorem responseTakeReturnsThePair : Obligations.ResponseTakeReturnsThePair := by
  intro s hr hp hv
  refine ⟨fun hy => ?_, fun hy => ?_⟩
  · refine ⟨_, step_take hr (Engine.phaseReserved_of_idle hp) hv hy, rfl, rfl, ?_, rfl, rfl, rfl, rfl, rfl⟩
    exact (Engine.cmdReady_iff _).2 ⟨hp, rfl⟩
  · refine step_wait hr hp (fun ⟨_, _, _, h⟩ => ?_) (fun ⟨_, h, _⟩ => ?_)
    · rw [hv] at h; cases h
    · rw [hy] at h; cases h

/-- Settles O11: a busy engine makes the same move whatever the command ports carry, or the same fault. -/
theorem unacceptedCommandChangesNothing : Obligations.UnacceptedCommandChangesNothing := by
  intro s hb
  refine ⟨fun data => ⟨exec_configure_busy data hb, exec_permute_busy data hb⟩, fun p q hr hy => ?_⟩
  rcases move_or_reserved (s.setPort p) with ⟨t, ht⟩ | ⟨h, h6⟩
  · rw [ht.step, (ht.setPort_congr hb hr hy).step]
  · rw [step_reserved h h6, step_reserved (s := s.setPort q) (hr ▸ h) h6]; rfl

/-- Settles O12: the word's length selects how it is placed and how it is decoded. -/
theorem placedWordIsRunNext : Obligations.PlacedWordIsRunNext := by
  intro s nbits w i h
  have hd : decodeWord 256 nbits w = .ok i := by
    rw [decodeTableWord] at h
    cases hw : decodeWord 256 nbits w <;> rw [hw] at h <;> cases h
    rfl
  rw [State.withFetchWord, State.placeWord]
  by_cases huop : nbits = 7 ∨ nbits = wholeBytes 7
  · rw [decodeWord_uop w huop] at hd
    rw [if_pos huop]
    by_cases hw : w < 2 ^ 7
    · exact step_placeUop s (by rwa [decodeUopWord_of_lt hw] at hd)
    · rw [decodeUopWord, if_neg hw] at hd; cases hd
  by_cases hcmd : nbits = 257 ∨ nbits = wholeBytes 257
  · rw [decodeWord_cmd w le_rfl hcmd] at hd
    rw [if_neg huop, if_pos hcmd]
    by_cases hw : w < 2 ^ (256 + 1)
    · rw [decodeCmdWord_of_lt hw] at hd
      cases hd
      exact step_placeCmd s w
    · rw [decodeCmdWord, if_neg hw] at hd; cases hd
  · rw [decodeWord, if_neg huop, if_neg hcmd] at hd
    cases hd

/-- Settles O15: the accepting step loads the presented operand, and so does `exec` of LOAD. -/
theorem acceptedPermutePerformsLoad : Obligations.AcceptedPermutePerformsLoad := by
  intro s rnd ha ho hc hx
  rw [step_load ⟨ha, ho, hc, hx⟩, exec_load, closeEdge_next]

end Sys2Proof
end

section
/-! The invariants, move by move: the machine's (R29, R167, R170, R190), that of calls (R180, R181), and which register each move
writes (R20). -/

namespace Sys2Proof.Machine

variable {s t : State}

/-- An accepted CONFIGURE writes `CONFIGURED` and responds with zero data, in every state alike (R161). -/
theorem State.configure_eq_respond (cfgOk cfg : Nat) :
    ∃ b st, ∀ s : State, s.configure cfgOk cfg = (s.setConfigured b).respond st 0 := by
  by_cases h : cfg = cfgOk
  · exact ⟨true, .ok, fun s => State.configure_supported s h⟩
  · exact ⟨false, .error .unsupportedConfiguration, fun s => State.configure_unsupported s h⟩

/-- A PERMUTE that fails a check responds with an error and writes nothing else (R162, R193). -/
theorem State.permute_eq_raise {x : Nat} (h : s.engine.configured = false ∨ 2 ^ 256 ≤ x) : ∃ e, s.permute x = s.raise e := by
  cases hc : s.engine.configured with
  | false => exact ⟨_, State.permute_unconfigured s x hc⟩
  | true => exact ⟨_, State.permute_outOfRange s hc (h.resolve_left (by rw [hc]; decide))⟩

/-- A response with zero data is legal, whatever its status (R75, R76). -/
theorem Response.legal_of_status (st : Status) : (Response.mk st.code 0).legal := by
  refine ⟨?_, fun _ => rfl⟩
  cases st with
  | ok => decide
  | error e => cases e <;> decide

/-- An `OK` response is legal, whatever its data (R75, R76). -/
theorem Response.legal_of_ok (data : BitVec 256) : (Response.mk 0 data).legal := by
  refine ⟨?_, fun h => absurd rfl h⟩
  change (0 : BitVec 2) ≠ 3
  decide

/-- In an idle engine the invariant is about the waiting response only. -/
theorem Engine.Inv.of_idle {e : Engine} (hp : e.ph = 0)
    (hl : e.rspValid = true → (Response.mk e.rspStatus e.rspData).legal) : e.Inv := by
  refine ⟨?_, fun h => absurd hp h, fun h => ?_, hl⟩
  · rw [hp]; decide
  · rw [hp] at h; exact absurd h (by decide)

/-- A response waits in an idle engine only (R167). -/
theorem Engine.Inv.idle_of_rspValid {e : Engine} (h : e.Inv) (hv : e.rspValid = true) : e.ph = 0 := by
  obtain ⟨_, hcall, _⟩ := h
  by_contra hp
  rw [(hcall hp).1] at hv
  cases hv

/-- No layer runs at `PH = 0`. -/
theorem phase_ne_zero_of_pos {ph : BitVec 3} (h : 1 ≤ ph.toNat) : ph ≠ 0 := by
  rintro rfl
  exact absurd h (by decide)

/-- Every move keeps the machine's invariant. -/
theorem Move.keeps_inv (h : Move s t) (hi : s.Inv) : t.Inv := by
  obtain ⟨he, htaken⟩ := hi
  have ⟨_, hcall, _, hlegal⟩ := he
  cases h with
  | reset =>
    rw [State.Inv, State.advance_taken, State.resetEdge_taken]
    exact ⟨.of_idle rfl (fun h => by cases h), htaken⟩
  | take h6 ht =>
    refine ⟨.of_idle (he.idle_of_rspValid ht.rspValid) (fun h => by cases h), fun r hr => ?_⟩
    rcases List.mem_append.1 hr with hr | hr
    · exact htaken r hr
    · rw [List.mem_singleton.1 hr]; exact hlegal ht.rspValid
  | configure ha =>
    obtain ⟨b, st, e⟩ := State.configure_eq_respond Config.params.cfgOk.toNat s.port.cmdData
    rw [e]
    exact ⟨.of_idle ha.idle (fun _ => Response.legal_of_status st), htaken⟩
  | reject ha ho hwhy =>
    obtain ⟨err, e⟩ := State.permute_eq_raise hwhy
    rw [e]
    exact ⟨.of_idle ha.idle (fun _ => Response.legal_of_status (.error err)), htaken⟩
  | load h =>
    have ⟨_, _, hc, _⟩ := h
    rw [State.Inv, State.advance_engine, State.loadOperand_engine, State.advance_taken, State.loadOperand_taken]
    exact ⟨⟨by simp, fun _ => ⟨h.accepts.noResponse, hc⟩, fun _ => rfl, hlegal⟩, htaken⟩
  | wait => exact ⟨he, htaken⟩
  | layer hr ht h1 h4 =>
    obtain ⟨_, h5, hlast⟩ := phaseAfter_layer s.engine.ph s.engine.rnd h1 h4
    rw [State.Inv, State.advance_engine, State.runLayer_engine]
    exact ⟨⟨h5, fun _ => hcall (phase_ne_zero_of_pos h1), hlast, hlegal⟩, htaken⟩
  | store =>
    rw [State.Inv, State.advance_engine, State.runStore_engine]
    exact ⟨.of_idle rfl (fun _ => Response.legal_of_ok _), htaken⟩

/-- Under the invariant the phase is not reserved, so the machine steps. -/
theorem State.Inv.step_next (h : s.Inv) : ∃ t, step s = .next t := by
  refine (step_next_or_fault s).resolve_right fun ⟨_, h6, _⟩ => ?_
  obtain ⟨⟨hph, _⟩, _⟩ := h
  rw [Engine.phaseReserved, decide_eq_true_eq] at h6
  omega

/-! The invariant of calls. -/

/-- Each layer leads from what a call holds at its phase to what the call holds at the next (R171, R180). -/
theorem gridAt_layer (P : Params) {ph : BitVec 3} (i : BitVec 4) (x : Nat) (h1 : 1 ≤ ph.toNat) (h4 : ph.toNat ≤ 4) :
    gridAt P (phaseAfter ph i) (roundAfter ph i) x = layerGrid P ph i (gridAt P ph i x) := by
  rcases layerPhase_cases ph h1 h4 with rfl | rfl | rfl | rfl
  · rw [layerGrid_subrows]; exact gridAt_mixslices P x i
  · rw [layerGrid_mixslices]; exact gridAt_shiftplanes P x i
  · rw [layerGrid_shiftplanes]; exact gridAt_addconstant P x i
  · rw [layerGrid_addconstant]; exact gridAt_phaseAfterRound P i x

/-- The first entry of a call holds its operand (R162, R180). -/
theorem State.computes_loadOperand (s : State) (x : Nat) : (s.loadOperand x).advance.Computes x := by
  rw [State.Computes, State.advance_engine, State.loadOperand_engine, gridAt_start]

/-- A layer keeps the operand of the call (R171, R180). -/
theorem State.Computes.layer {x : Nat} (h : s.Computes x) (h1 : 1 ≤ s.engine.ph.toNat) (h4 : s.engine.ph.toNat ≤ 4) :
    s.runLayer.advance.Computes x := by
  rw [State.Computes] at h
  rw [State.Computes, State.advance_engine, State.runLayer_engine]
  simp only [gridAt_layer _ _ _ h1 h4, ← h]

/-- A response with zero data is an honest one. -/
theorem Response.honest_zero (P : Params) (status : BitVec 2) : (Response.mk status 0).honest P := fun _ => .inl rfl

/-- STORE's response at the end of a call is an honest one (R181). -/
theorem State.Computes.honest {x : Nat} (h : s.Computes x) (hp : s.engine.ph = 5) (hx : x < 2 ^ 256) (status : BitVec 2) :
    (Response.mk status (packBytes (storeBytes s.engine.g))).honest Config.params := by
  rw [h.store hp]
  exact fun _ => .inr ⟨x, hx, rfl⟩

/-- The invariant of calls in an idle engine is about the responses only. -/
theorem State.CallInv.of_idle (hi : s.Inv) (hp : s.engine.ph = 0)
    (hv : s.engine.rspValid = true → (Response.mk s.engine.rspStatus s.engine.rspData).honest Config.params)
    (ht : ∀ r ∈ s.taken, r.honest Config.params) : s.CallInv :=
  ⟨hi, fun h => absurd hp h, hv, ht⟩

/-- Every move keeps the invariant of calls. -/
theorem Move.keeps_callInv (h : Move s t) (hc : s.CallInv) : t.CallInv := by
  obtain ⟨hi, hcall, hhonest, htaken⟩ := hc
  have hi' := h.keeps_inv hi
  obtain ⟨he, _⟩ := hi
  cases h with
  | reset =>
    refine .of_idle hi' rfl (fun h => by cases h) ?_
    rw [State.advance_taken, State.resetEdge_taken]
    exact htaken
  | take h6 ht =>
    refine .of_idle hi' (he.idle_of_rspValid ht.rspValid) (fun h => by cases h) fun r hr => ?_
    rcases List.mem_append.1 hr with hr | hr
    · exact htaken r hr
    · rw [List.mem_singleton.1 hr]; exact hhonest ht.rspValid
  | configure ha =>
    obtain ⟨b, st, e⟩ := State.configure_eq_respond Config.params.cfgOk.toNat s.port.cmdData
    rw [e] at hi' ⊢
    exact .of_idle hi' ha.idle (fun _ => Response.honest_zero _ _) htaken
  | reject ha ho hwhy =>
    obtain ⟨err, e⟩ := State.permute_eq_raise hwhy
    rw [e] at hi' ⊢
    exact .of_idle hi' ha.idle (fun _ => Response.honest_zero _ _) htaken
  | load h =>
    have ⟨_, _, _, hx⟩ := h
    refine ⟨hi', fun _ => ⟨_, hx, s.computes_loadOperand _⟩, ?_⟩
    rw [State.advance_engine, State.loadOperand_engine, State.advance_taken, State.loadOperand_taken]
    exact ⟨hhonest, htaken⟩
  | wait => exact ⟨hi', hcall, hhonest, htaken⟩
  | layer hr ht h1 h4 =>
    obtain ⟨x, hx, hg⟩ := hcall (phase_ne_zero_of_pos h1)
    refine ⟨hi', fun _ => ⟨x, hx, State.Computes.layer hg h1 h4⟩, ?_, htaken⟩
    rw [State.advance_engine, State.runLayer_engine]
    exact hhonest
  | store hr ht hp =>
    obtain ⟨x, hx, hg⟩ := hcall (by rw [hp]; decide)
    refine .of_idle hi' rfl (fun _ => ?_) htaken
    rw [State.advance_engine, State.runStore_engine]
    exact State.Computes.honest hg hp hx 0

/-- In a call, short of a reset, a layer or STORE is the only move (R167, R170). -/
theorem Move.in_call (h : Move s t) (hi : s.Inv) (hp : s.engine.ph ≠ 0) (hr : s.port.rst = false) :
    ((1 ≤ s.engine.ph.toNat ∧ s.engine.ph.toNat ≤ 4) ∧ t = s.runLayer.advance) ∨
      (s.engine.ph = 5 ∧ t = s.runStore.advance) := by
  obtain ⟨he, _⟩ := hi
  cases h with
  | reset h => rw [h] at hr; cases hr
  | take h6 ht => exact absurd (he.idle_of_rspValid ht.rspValid) hp
  | configure ha => exact absurd ha.idle hp
  | reject ha => exact absurd ha.idle hp
  | load h => exact absurd h.accepts.idle hp
  | wait hr h0 => exact absurd h0 hp
  | layer hr ht h1 h4 => exact .inl ⟨⟨h1, h4⟩, rfl⟩
  | store hr ht h5 => exact .inr ⟨h5, rfl⟩

end Sys2Proof.Machine

namespace Sys2Proof
open Machine

/-- Settles O43: every step is a move, and every move keeps the invariant. -/
theorem stepKeepsTheInvariant : Obligations.StepKeepsTheInvariant := fun _ _ hi h => (move_of_step h).keeps_inv hi

/-- Settles O44: the reset state is idle, without a response, and nothing has been taken. -/
theorem invariantsHoldAfterReset : Obligations.InvariantsHoldAfterReset := by
  have hi : State.reset.Inv := ⟨.of_idle rfl fun h => (by cases h), fun _ h => (by cases h)⟩
  exact ⟨hi, .of_idle hi rfl (fun h => by cases h) (fun _ h => by cases h)⟩

/-- Settles O45: under the invariant there is a next step, which keeps it. -/
theorem engineNeverStopsUnderTheInvariant : Obligations.EngineNeverStopsUnderTheInvariant := by
  intro s k hi
  induction k generalizing s with
  | zero => exact ⟨s, rfl, hi⟩
  | succ k ih =>
    obtain ⟨u, hu⟩ := hi.step_next
    obtain ⟨t, ht, hi'⟩ := ih u ((move_of_step hu).keeps_inv hi)
    exact ⟨t, (runSteps_succ hu).trans ht, hi'⟩

/-- Settles O46: the moves keep the invariant, LOAD begins a call of its operand, a layer continues it, STORE ends it. -/
theorem stepKeepsTheCallInvariant : Obligations.StepKeepsTheCallInvariant := by
  intro s t h
  refine ⟨(move_of_step h).keeps_callInv, fun hs => ?_, fun x hi hp hr hg => ?_⟩
  · obtain rfl := Host.Outcome.next.inj (h.symm.trans (step_load hs))
    refine ⟨?_, s.computes_loadOperand _⟩
    rw [State.advance_engine, State.loadOperand_engine]
    simp
  · obtain ⟨⟨_, hcall, _⟩, _⟩ := id hi
    obtain ⟨hv, _⟩ := hcall hp
    rcases (move_of_step h).in_call hi hp hr with ⟨⟨h1, h4⟩, rfl⟩ | ⟨h5, rfl⟩
    · obtain ⟨hne, _⟩ := phaseAfter_layer s.engine.ph s.engine.rnd h1 h4
      refine ⟨fun _ => ⟨?_, State.Computes.layer hg h1 h4, ?_, rfl⟩, fun h5 => ?_⟩
      · rw [State.advance_engine, State.runLayer_engine]; exact hne
      · rw [State.advance_engine, State.runLayer_engine]; exact hv
      · rw [h5] at h4
        exact absurd h4 (by decide)
    · rw [State.advance_engine, State.runStore_engine]
      exact ⟨fun h => absurd h5 h, fun _ => ⟨rfl, rfl, rfl, congrArg packBytes (State.Computes.store hg h5), rfl⟩⟩

/-- Settles O47: each move writes only the registers of its writers. -/
theorem registersAreWrittenOnlyByTheirWriters : Obligations.RegistersAreWrittenOnlyByTheirWriters := by
  intro s t hstep hr
  cases move_of_step hstep with
  | reset hrst => rw [hrst] at hr; cases hr
  | take h6 ht => exact ⟨absurd rfl, absurd rfl, absurd rfl, absurd rfl, fun _ => .inr (.inr ht), fun _ => ht⟩
  | configure ha ho =>
    obtain ⟨b, st, e⟩ := State.configure_eq_respond Config.params.cfgOk.toNat s.port.cmdData
    rw [e]
    exact ⟨absurd rfl, absurd rfl, absurd rfl, fun _ => ⟨ha, ho⟩, fun _ => .inl ⟨ha, .inl ho⟩, absurd rfl⟩
  | reject ha ho hwhy =>
    obtain ⟨err, e⟩ := State.permute_eq_raise hwhy
    rw [e]
    exact ⟨absurd rfl, absurd rfl, absurd rfl, absurd rfl, fun _ => .inl ⟨ha, .inr hwhy⟩, absurd rfl⟩
  | load hs =>
    rw [State.advance_engine, State.loadOperand_engine, State.advance_taken, State.loadOperand_taken]
    exact ⟨fun _ => .inl hs, fun _ => .inl hs, fun _ => .inl hs, absurd rfl,
      fun h => h.elim (absurd rfl) (Or.elim · (absurd rfl) (absurd rfl)), absurd rfl⟩
  | wait =>
    exact ⟨absurd rfl, absurd rfl, absurd rfl, absurd rfl,
      fun h => h.elim (absurd rfl) (Or.elim · (absurd rfl) (absurd rfl)), absurd rfl⟩
  | layer hr ht h1 h4 =>
    rw [State.advance_engine, State.runLayer_engine]
    refine ⟨fun _ => .inr ⟨h1, h4⟩, fun h => .inr ?_, fun _ => .inr ⟨h1, by omega⟩, absurd rfl,
      fun h => h.elim (absurd rfl) (Or.elim · (absurd rfl) (absurd rfl)), absurd rfl⟩
    by_contra hne
    exact h (roundAfter_of_ne _ hne)
  | store hr ht h5 =>
    rw [State.advance_engine, State.runStore_engine]
    exact ⟨absurd rfl, absurd rfl, fun _ => .inr (by rw [h5]; decide), absurd rfl, fun _ => .inr (.inl h5), absurd rfl⟩

end Sys2Proof
end

section
/-! Commands and their responses along a run: what a call leaves unchanged, a response held and taken, and an engine to which no
command is presented (R62, R160, R166, R181, R222). -/

namespace Sys2Proof.Machine

variable {s t : State}

/-! Input samples along a run (log 1). -/

/-- What holds of the next `k + 1` samples and of a quiet port holds of the coming one. -/
theorem State.port_of_take {C : PortSample → Prop} {k : Nat} (hq : C .quiet) (h : ∀ p ∈ s.inputs.take (k + 1), C p) :
    C s.port := by
  cases hi : s.inputs with
  | nil => rwa [State.port_nil s hi]
  | cons p ps => rw [State.port_cons s hi]; apply h; simp [hi]

/-- What holds of the next `k + 1` samples holds of the `k` after the coming one. -/
theorem forall_mem_take_tail {α : Type} {C : α → Prop} {l : List α} {k : Nat} (h : ∀ p ∈ l.take (k + 1), C p) :
    ∀ p ∈ l.tail.take k, C p := by
  intro p hp
  refine h p (List.mem_of_mem_tail ?_)
  rwa [List.tail_take_eq_take_tail]

/-- A shorter look ahead meets no reset either. -/
theorem State.noResetFor_mono {j k : Nat} (h : s.noResetFor k) (hjk : j ≤ k) : s.noResetFor j := fun p hp =>
  h p (List.take_subset_take_left _ hjk hp)

/-- The first step of a run. -/
theorem runSteps_succ_inv {k : Nat} (h : runSteps (k + 1) s = .next t) : ∃ u, step s = .next u ∧ runSteps k u = .next t := by
  rw [runSteps] at h
  split at h
  · exact ⟨_, ‹_›, h⟩
  · cases h
  · cases h

/-- Every step uses up one input sample. -/
theorem Move.inputs (h : Move s t) : t.inputs = s.inputs.tail := by
  cases h with
  | configure =>
    obtain ⟨b, st, e⟩ := State.configure_eq_respond Config.params.cfgOk.toNat s.port.cmdData
    rw [e]; rfl
  | reject ha ho hwhy =>
    obtain ⟨err, e⟩ := State.permute_eq_raise hwhy
    rw [e]; rfl
  | _ => simp only [State.advance_inputs, State.resetEdge_inputs, State.takeResponse_inputs, State.loadOperand_inputs,
      State.runLayer_inputs, State.runStore_inputs]

/-- Along a run without reset, take or CONFIGURE the host receives nothing and `CONFIGURED` stays (R20, R28). -/
theorem runSteps_unchanged {k : Nat} (hn : s.noResetFor k)
    (hrun : ∀ j < k, ∃ u, runSteps j s = .next u ∧ u.engine.rspValid = false ∧ ¬(u.accepts ∧ u.port.cmdOp = 0))
    (h : runSteps k s = .next t) :
    t.taken = s.taken ∧ t.engine.configured = s.engine.configured ∧ t.inputs = s.inputs.drop k := by
  induction k generalizing s with
  | zero => cases h; exact ⟨rfl, rfl, rfl⟩
  | succ k ih =>
    obtain ⟨u, hu, ht⟩ := runSteps_succ_inv h
    obtain ⟨_, _, _, hconfigured, _, htaken⟩ := registersAreWrittenOnlyByTheirWriters s u hu (State.noResetFor_port hn)
    obtain ⟨_, h0, hv, hcfg⟩ := hrun 0 (Nat.succ_pos k)
    cases h0
    have hinputs := (move_of_step hu).inputs
    obtain ⟨ht1, ht2, ht3⟩ := ih (State.noResetFor_tail hn hinputs)
      (fun j hj => by rw [← runSteps_succ hu]; exact hrun (j + 1) (Nat.succ_lt_succ hj)) ht
    refine ⟨ht1.trans ?_, ht2.trans ?_, ?_⟩
    · by_contra hne; exact State.not_takes hv (htaken hne)
    · by_contra hne; exact hcfg (hconfigured hne)
    · rw [ht3, hinputs, List.drop_tail]

/-! A call. -/

/-- Until its response a call is at the accepting step or at one of its entries, where nothing is accepted (R160, R171). -/
theorem State.startsCall.unanswered (h : s.startsCall) (hn : s.noResetFor 66) {j : Nat} (hj : j < 66) :
    ∃ u, runSteps j s = .next u ∧ u.engine.rspValid = false ∧ ¬(u.accepts ∧ u.port.cmdOp = 0) := by
  cases j with
  | zero =>
    have ⟨_, ho, _⟩ := h
    exact ⟨s, rfl, h.accepts.noResponse, fun ⟨_, h0⟩ => absurd (ho.symm.trans h0) (by decide)⟩
  | succ j =>
    rw [show 66 = 1 + j + (65 - j) by omega] at hn
    obtain ⟨u, hu, hentry, _⟩ := h.run (by omega) hn
    rw [Nat.add_comm 1 j] at hu hentry
    refine ⟨u, hu, hentry.noResponse, fun ⟨ha, _⟩ => ?_⟩
    exact entryPhase_ne_zero _ (by omega) (hentry.phase.symm.trans ha.idle)

/-- What a call leaves unchanged at each of its steps (R181). -/
theorem State.startsCall.unchanged (h : s.startsCall) (hn : s.noResetFor 66) {j : Nat} (hj : j ≤ 66)
    (ht : runSteps j s = .next t) :
    t.taken = s.taken ∧ t.engine.configured = s.engine.configured ∧ t.inputs = s.inputs.drop j :=
  runSteps_unchanged (State.noResetFor_mono hn hj) (fun _ hi => h.unanswered hn (hi.trans_le hj)) ht

/-! A command answered at once. -/

/-- A command answered at once is answered with zero data (R161, R162). -/
theorem State.answersAtOnce.step_respond (h : s.answersAtOnce) :
    ∃ b st, step s = .next ((s.setConfigured b).respond st 0).advance := by
  obtain ⟨ha, hwhy⟩ := h
  rcases BitVec.eq_zero_or_eq_one s.port.cmdOp with ho | ho
  · obtain ⟨b, st, e⟩ := State.configure_eq_respond Config.params.cfgOk.toNat s.port.cmdData
    exact ⟨b, st, by rw [step_configure ha ho, e]⟩
  · obtain ⟨err, e⟩ := State.permute_eq_raise (hwhy.resolve_left (by rw [ho]; decide))
    exact ⟨s.engine.configured, .error err, by rw [step_permute ha ho, e]; rfl⟩

/-- A command answered at once starts no call (R162). -/
theorem State.answersAtOnce.not_startsCall (h : s.answersAtOnce) : ¬s.startsCall := by
  rintro ⟨_, ho, hc, hx⟩
  obtain ⟨_, h0 | h0 | h0⟩ := h
  · exact absurd (ho.symm.trans h0) (by decide)
  · exact absurd (hc.symm.trans h0) (by decide)
  · exact absurd hx (Nat.not_lt.2 h0)

/-! A waiting response. -/

/-- A response is held with everything else while the host neither takes it nor resets (R166). -/
theorem runSteps_held {m : Nat} (hp : s.engine.ph = 0) (hv : s.engine.rspValid = true)
    (hm : ∀ p ∈ s.inputs.take m, p.rst = false ∧ p.rspReady = false) :
    runSteps m s = .next { s with inputs := s.inputs.drop m } := by
  induction m generalizing s with
  | zero => rfl
  | succ m ih =>
    obtain ⟨hr, hy⟩ := State.port_of_take (C := fun p => p.rst = false ∧ p.rspReady = false) ⟨rfl, rfl⟩ hm
    have ha : ¬s.accepts := fun ha => absurd (hv.symm.trans ha.noResponse) Bool.true_eq_false_eq_False
    have ht : ¬s.takes := fun ⟨_, hy', _⟩ => absurd (hy.symm.trans hy') Bool.false_ne_true
    rw [runSteps_succ (step_wait hr hp ha ht), ih (s := s.advance) hp hv (forall_mem_take_tail hm), State.advance_inputs,
      List.drop_tail]
    rfl

/-- An idle engine without a response, to which no command is presented, stays so, over resets too (R160, R220). -/
theorem step_idle (hp : s.engine.ph = 0) (hv : s.engine.rspValid = false) (hc : s.port.cmdValid = false) :
    ∃ u, step s = .next u ∧ u.engine.ph = 0 ∧ u.engine.rspValid = false ∧ u.taken = s.taken ∧ u.inputs = s.inputs.tail ∧
      (s.engine.configured = false → u.engine.configured = false) := by
  cases hr : s.port.rst with
  | true =>
    refine ⟨_, step_reset hr, rfl, rfl, ?_, ?_, fun _ => rfl⟩
    · rw [State.advance_taken, State.resetEdge_taken]
    · rw [State.advance_inputs, State.resetEdge_inputs]
  | false =>
    have ha : ¬s.accepts := fun ⟨_, hc', _⟩ => absurd (hc.symm.trans hc') Bool.false_ne_true
    exact ⟨_, step_wait hr hp ha (State.not_takes hv), hp, hv, rfl, rfl, id⟩

/-- The same for any number of steps. -/
theorem runSteps_idle {n : Nat} (hp : s.engine.ph = 0) (hv : s.engine.rspValid = false)
    (hn : ∀ p ∈ s.inputs.take n, p.cmdValid = false) :
    ∃ u, runSteps n s = .next u ∧ u.engine.ph = 0 ∧ u.engine.rspValid = false ∧ u.taken = s.taken ∧
      (s.engine.configured = false → u.engine.configured = false) := by
  induction n generalizing s with
  | zero => exact ⟨s, rfl, hp, hv, rfl, id⟩
  | succ n ih =>
    obtain ⟨u, hu, hp', hv', htaken, hinputs, hc⟩ :=
      step_idle hp hv (State.port_of_take (C := fun p => p.cmdValid = false) rfl hn)
    obtain ⟨t, ht, hp'', hv'', htaken', hc'⟩ := ih hp' hv' (by rw [hinputs]; exact forall_mem_take_tail hn)
    exact ⟨t, (runSteps_succ hu).trans ht, hp'', hv'', htaken'.trans htaken, hc' ∘ hc⟩

/-- A taken response is received once: without a further command no other becomes valid (R62, R166). -/
theorem runSteps_taken {n : Nat} (hp : s.engine.ph = 0) (ht : s.takes)
    (hn : ∀ p ∈ s.inputs.tail.take n, p.cmdValid = false) :
    ∃ u, runSteps (n + 1) s = .next u ∧ u.engine.rspValid = false ∧
      u.taken = s.taken ++ [⟨s.engine.rspStatus, s.engine.rspData⟩] := by
  have hstep := (Move.take (Engine.phaseReserved_of_idle hp) ht).step
  obtain ⟨u, hu, _, hv, htaken, _⟩ := runSteps_idle (s := s.takeResponse.advance) hp rfl hn
  exact ⟨u, (runSteps_succ hstep).trans hu, hv, htaken⟩

/-! An answered command. -/

/-- The `k`-th step from `s`, and none before, makes a response valid, in the idle engine `t`; the host has taken nothing. -/
structure State.AnsweredBy (s : State) (k : Nat) (t : State) : Prop where
  run : runSteps k s = .next t
  responds : t.engine.rspValid = true
  idle : t.engine.ph = 0
  taken : t.taken = s.taken
  before : ∀ j < k, ∃ u, runSteps j s = .next u ∧ u.engine.rspValid = false ∧ u.taken = s.taken

/-- A command answered at once is answered by the accepting step (R161, R162, R165). -/
theorem State.answersAtOnce.answered (h : s.answersAtOnce) : ∃ t, s.AnsweredBy 1 t := by
  have ⟨ha, _⟩ := h
  obtain ⟨b, st, hstep⟩ := h.step_respond
  refine ⟨_, runSteps_succ hstep, rfl, ha.idle, rfl, fun j hj => ?_⟩
  obtain rfl := Nat.lt_one_iff.1 hj
  exact ⟨s, rfl, ha.noResponse, rfl⟩

/-- A call is answered by the 66th step (R171, R181). -/
theorem State.startsCall.answered (h : s.startsCall) (hn : s.noResetFor 66) : ∃ t, s.AnsweredBy 66 t := by
  obtain ⟨t, ht, hp, _, hv, _⟩ := h.responds hn
  obtain ⟨htaken, _⟩ := h.unchanged hn le_rfl ht
  refine ⟨t, ht, hv, hp, htaken, fun j hj => ?_⟩
  obtain ⟨u, hu, hvu, _⟩ := h.unanswered hn hj
  obtain ⟨htu, _⟩ := h.unchanged hn hj.le hu
  exact ⟨u, hu, hvu, htu⟩

/-- The response is held until the host takes it, and then received once (R62, R166). -/
theorem State.AnsweredBy.received {k : Nat} (h : s.AnsweredBy k t) (m : Nat)
    (hm : ∀ p ∈ t.inputs.take m, p.rst = false ∧ p.rspReady = false) :
    let w := { t with inputs := t.inputs.drop m }
    runSteps m t = .next w ∧
      (w.takes → ∀ n, (∀ p ∈ w.inputs.tail.take n, p.cmdValid = false) →
        ∃ u, runSteps (n + 1) w = .next u ∧ u.engine.rspValid = false ∧
          u.taken = s.taken ++ [⟨t.engine.rspStatus, t.engine.rspData⟩]) := by
  refine ⟨runSteps_held h.idle h.responds hm, fun htakes n hn => ?_⟩
  rw [← h.taken]
  exact runSteps_taken h.idle htakes hn

end Sys2Proof.Machine

namespace Sys2Proof
open Machine

/-- Settles O39: the call ends with the permutation, leaves the rest unchanged, and the take hands over the pair. -/
theorem permuteRespondsWithThePermutation : Obligations.PermuteRespondsWithThePermutation := by
  intro s ha ho hc hx hn
  have hcall : s.startsCall := ⟨ha, ho, hc, hx⟩
  obtain ⟨t, ht, hp, _, hv, hst, hdata⟩ := hcall.responds hn
  obtain ⟨htaken, hconfigured, hinputs⟩ := hcall.unchanged hn le_rfl ht
  refine ⟨t, ht, hp, hv, hst, fun m => ?_, htaken, hconfigured.trans hc, hinputs, fun htakes => ?_⟩
  · rw [hdata]; exact outputBuffer_packBytes _ m
  · refine ⟨_, (Move.take (Engine.phaseReserved_of_idle hp) htakes).step, rfl, ?_⟩
    rw [State.advance_taken, State.takeResponse_taken, htaken, hst, hdata]

/-- Settles O41: the accepting step answers, or the call's 66 steps do; the response is held, then taken once. -/
theorem everyAcceptedCommandIsAnsweredOnce : Obligations.EveryAcceptedCommandIsAnsweredOnce := by
  intro s ha hwhy
  rcases ha.answersAtOnce_or_startsCall with hs | hs
  · obtain ⟨t, h⟩ := hs.answered
    exact ⟨1, t, fun _ => rfl, fun h => absurd h hs.not_startsCall, le_rfl, by decide, h.run, h.responds, h.taken, h.before,
      h.received⟩
  · obtain ⟨t, h⟩ := hs.answered (hwhy.resolve_left fun h => h.not_startsCall hs)
    exact ⟨66, t, fun h => absurd hs h.not_startsCall, fun _ => rfl, by decide, le_rfl, h.run, h.responds, h.taken, h.before,
      h.received⟩

/-- Settles O42: the reset leaves an idle, unconfigured engine, which stays so without a command. -/
theorem resetAbandonsTheCall : Obligations.ResetAbandonsTheCall := by
  intro s k hr hn
  obtain ⟨t, ht, hp, hv, htaken, hc⟩ := runSteps_idle (s := s.resetEdge.advance) (n := k) rfl rfl
    (by rwa [State.advance_inputs, State.resetEdge_inputs])
  refine ⟨t, (runSteps_succ (step_reset hr)).trans ht, hp, hv, hc rfl, ?_⟩
  rw [htaken, State.advance_taken, State.resetEdge_taken]

end Sys2Proof
end

section
/-! Noninterference: what the spec calls unspecified (R24, R30, R32, R34, R221) and the data (R27, R232) reach nothing they must not.
Two states related so make the same move, and stay related. -/

namespace Sys2Proof.Machine

variable {s t s' : State}

/-- Two machines whose moves keep a relation keep it for any number of steps. -/
theorem runSteps_simulates {R : State → State → Prop}
    (hmove : ∀ {s t s'}, R s t → Move s s' → ∃ t', Move t t' ∧ R s' t') {k : Nat} (h : R s t)
    (hrun : runSteps k s = .next s') : ∃ t', runSteps k t = .next t' ∧ R s' t' := by
  induction k generalizing s t with
  | zero => cases hrun; exact ⟨t, rfl, h⟩
  | succ k ih =>
    obtain ⟨u, hu, hrun'⟩ := runSteps_succ_inv hrun
    obtain ⟨v, hv, huv⟩ := hmove h (move_of_step hu)
    obtain ⟨t', ht', h'⟩ := ih huv hrun'
    exact ⟨t', (runSteps_succ hv.step).trans ht', h'⟩

/-- A rejected PERMUTE responds with one error in all states of one `CONFIGURED` bit, for all operands on one side of the range
check (R162). -/
theorem State.permute_reject_congr {x y : Nat} (hwhy : s.engine.configured = false ∨ 2 ^ 256 ≤ x)
    (hc : s.engine.configured = t.engine.configured) (hxy : inRange x = inRange y) :
    ∃ e, s.permute x = s.raise e ∧ t.permute y = t.raise e := by
  cases h : s.engine.configured with
  | false => exact ⟨_, State.permute_unconfigured s x h, State.permute_unconfigured t y (hc.symm.trans h)⟩
  | true =>
    have hx : 2 ^ 256 ≤ x := hwhy.resolve_left (by rw [h]; decide)
    have hy : 2 ^ 256 ≤ y := by rwa [← Nat.not_lt, ← inRange_iff, ← hxy, inRange_iff, Nat.not_lt]
    exact ⟨_, State.permute_outOfRange s h hx, State.permute_outOfRange t (hc.symm.trans h) hy⟩

/-! States that differ in what the spec calls unspecified. -/

theorem State.SameForHost.port (h : s.SameForHost t) : s.port = t.port := by
  obtain ⟨_, _, _, _, _, hinputs, _⟩ := h
  rw [State.port, State.port, hinputs]

/-- The output ports show nothing unspecified (R32, R33, R34). -/
theorem State.SameForHost.outputs (h : s.SameForHost t) : s.engine.outputs = t.engine.outputs := by
  obtain ⟨hp, _, hv, _, hrsp, _, _⟩ := h
  rw [Engine.outputs, Engine.outputs, Engine.cmdReady, Engine.cmdReady, hp, ← hv]
  cases hvalid : s.engine.rspValid with
  | false => rfl
  | true =>
    obtain ⟨hstatus, hdata⟩ := hrsp hvalid
    rw [hstatus, hdata]

theorem State.SameForHost.accepts (h : s.SameForHost t) (ha : s.accepts) : t.accepts := by
  have ⟨hp, _, hv, _⟩ := h
  rwa [State.accepts, ← h.port, ← hp, ← hv]

theorem State.SameForHost.takes_iff (h : s.SameForHost t) : s.takes ↔ t.takes := by
  have ⟨_, _, hv, _⟩ := h
  rw [State.takes, State.takes, h.port, hv]

theorem State.SameForHost.advance (h : s.SameForHost t) : s.advance.SameForHost t.advance := by
  obtain ⟨hp, hc, hv, hg, hrsp, hinputs, htaken⟩ := h
  exact ⟨hp, hc, hv, hg, hrsp, congrArg List.tail hinputs, htaken⟩

/-- What a reset leaves specified, and what the host has received, does not depend on the state before (R221). -/
theorem State.SameForHost.resetEdge (h : s.SameForHost t) : s.resetEdge.SameForHost t.resetEdge := by
  obtain ⟨_, _, _, _, _, hinputs, htaken⟩ := h
  refine ⟨rfl, rfl, rfl, absurd rfl, (fun h => by cases h), ?_, ?_⟩
  · rw [State.resetEdge_inputs, State.resetEdge_inputs, hinputs]
  · rw [State.resetEdge_taken, State.resetEdge_taken, htaken]

/-- A take hands over a valid response, which is specified (R166). -/
theorem State.SameForHost.takeResponse (h : s.SameForHost t) (hv : s.engine.rspValid = true) :
    s.takeResponse.SameForHost t.takeResponse := by
  obtain ⟨hp, hc, _, hg, hrsp, hinputs, htaken⟩ := h
  obtain ⟨hstatus, hdata⟩ := hrsp hv
  refine ⟨hp, hc, rfl, hg, (fun h => by cases h), hinputs, ?_⟩
  rw [State.takeResponse_taken, State.takeResponse_taken, hstatus, hdata, htaken]

theorem State.SameForHost.setConfigured (h : s.SameForHost t) (b : Bool) :
    (s.setConfigured b).SameForHost (t.setConfigured b) := by
  obtain ⟨hp, _, hv, hg, hrsp, hinputs, htaken⟩ := h
  exact ⟨hp, rfl, hv, hg, hrsp, hinputs, htaken⟩

theorem State.SameForHost.respond (h : s.SameForHost t) (st : Status) (data : BitVec 256) :
    (s.respond st data).SameForHost (t.respond st data) := by
  obtain ⟨hp, hc, _, hg, _, hinputs, htaken⟩ := h
  exact ⟨hp, hc, rfl, hg, fun _ => ⟨rfl, rfl⟩, hinputs, htaken⟩

/-- LOAD writes all of `G` and `RND` (R110). -/
theorem State.SameForHost.loadOperand (h : s.SameForHost t) (x : Nat) : (s.loadOperand x).SameForHost (t.loadOperand x) := by
  obtain ⟨_, hc, hv, _, hrsp, hinputs, htaken⟩ := h
  rw [State.SameForHost, State.loadOperand_engine, State.loadOperand_engine, State.loadOperand_inputs, State.loadOperand_inputs,
    State.loadOperand_taken, State.loadOperand_taken]
  exact ⟨rfl, hc, hv, fun _ => ⟨rfl, rfl⟩, hrsp, hinputs, htaken⟩

/-- A layer reads `G` and `RND` in a call, where they are specified (R24, R30). -/
theorem State.SameForHost.runLayer (h : s.SameForHost t) (h0 : s.engine.ph ≠ 0) : s.runLayer.SameForHost t.runLayer := by
  obtain ⟨hp, hc, hv, hg, hrsp, hinputs, htaken⟩ := h
  obtain ⟨hg, hrnd⟩ := hg h0
  rw [State.SameForHost, State.runLayer_engine, State.runLayer_engine, hp, hg, hrnd]
  exact ⟨rfl, hc, hv, fun _ => ⟨rfl, rfl⟩, hrsp, hinputs, htaken⟩

/-- STORE reads `G` in a call, where it is specified (R24). -/
theorem State.SameForHost.runStore (h : s.SameForHost t) (h0 : s.engine.ph ≠ 0) : s.runStore.SameForHost t.runStore := by
  obtain ⟨_, hc, _, hg, _, hinputs, htaken⟩ := h
  obtain ⟨hg, _⟩ := hg h0
  rw [State.SameForHost, State.runStore_engine, State.runStore_engine, hg]
  exact ⟨rfl, hc, rfl, absurd rfl, fun _ => ⟨rfl, rfl⟩, hinputs, htaken⟩

/-- States that differ in what is unspecified make the same move and still differ only so. -/
theorem State.SameForHost.move (h : s.SameForHost t) (hm : Move s s') : ∃ t', Move t t' ∧ s'.SameForHost t' := by
  have ⟨hp, hc, _⟩ := h
  have hport := h.port
  cases hm with
  | reset hr => exact ⟨_, .reset (hport ▸ hr), h.resetEdge.advance⟩
  | take h6 ht =>
    refine ⟨_, .take ?_ (h.takes_iff.1 ht), (h.takeResponse ht.rspValid).advance⟩
    rwa [Engine.phaseReserved, ← hp]
  | configure ha ho =>
    refine ⟨_, .configure (h.accepts ha) (hport ▸ ho), ?_⟩
    obtain ⟨b, st, e⟩ := State.configure_eq_respond Config.params.cfgOk.toNat s.port.cmdData
    rw [← hport, e, e]
    exact ((h.setConfigured b).respond st 0).advance
  | reject ha ho hwhy =>
    refine ⟨_, .reject (h.accepts ha) (hport ▸ ho) (hc ▸ hport ▸ hwhy), ?_⟩
    obtain ⟨err, es, et⟩ := State.permute_reject_congr hwhy hc rfl
    rw [← hport, es, et]
    exact (h.respond (.error err) 0).advance
  | load hs =>
    have ⟨ha, ho, hcfg, hx⟩ := hs
    rw [hport]
    exact ⟨_, .load ⟨h.accepts ha, hport ▸ ho, hc ▸ hcfg, hport ▸ hx⟩, (h.loadOperand _).advance⟩
  | wait hr h0 ha ht =>
    have ha' : ¬t.accepts := by
      have ⟨_, _, hv, _⟩ := h
      rwa [State.accepts, ← hport, ← hp, ← hv]
    exact ⟨_, .wait (hport ▸ hr) (hp ▸ h0) ha' (mt h.takes_iff.2 ht), h.advance⟩
  | layer hr ht h1 h4 =>
    exact ⟨_, .layer (hport ▸ hr) (mt h.takes_iff.2 ht) (hp ▸ h1) (hp ▸ h4), (h.runLayer (phase_ne_zero_of_pos h1)).advance⟩
  | store hr ht h5 =>
    exact ⟨_, .store (hport ▸ hr) (mt h.takes_iff.2 ht) (hp ▸ h5), (h.runStore (by rw [h5]; decide)).advance⟩

/-- They fault alike. -/
theorem State.SameForHost.runSteps_fault {k : Nat} {f : Fault} (h : s.SameForHost t) (hrun : runSteps k s = .fault f) :
    runSteps k t = .fault f := by
  induction k generalizing s t with
  | zero => cases hrun
  | succ k ih =>
    rcases step_next_or_fault s with ⟨u, hu⟩ | ⟨hr, h6, hf⟩
    · obtain ⟨v, hv, huv⟩ := h.move (move_of_step hu)
      rw [runSteps_succ hu] at hrun
      rw [runSteps_succ hv.step]
      exact ih huv hrun
    · have ⟨hp, _⟩ := h
      have hf' : step t = .fault (.reservedPhase t.engine.ph) :=
        step_reserved (h.port ▸ hr) (by rwa [Engine.phaseReserved, ← hp])
      rw [runSteps, hf, hp] at hrun
      rw [runSteps, hf']
      exact hrun

/-! States with the same sequencer, under inputs that ask the same of it. -/

/-- The coming samples ask the same, a sample or none being left (log 1). -/
theorem State.SameControl.port (h : s.SameControl t) : s.port.SameControl t.port := by
  obtain ⟨_, _, _, _, hinputs⟩ := h
  rw [State.port, State.port]
  generalize s.inputs = ps, t.inputs = qs at hinputs ⊢
  cases hinputs with
  | nil => exact ⟨rfl, rfl, rfl, rfl, fun _ => rfl, rfl⟩
  | cons hpq _ => exact hpq

theorem State.SameControl.inputs_tail (h : s.SameControl t) :
    List.Forall₂ PortSample.SameControl s.inputs.tail t.inputs.tail := by
  obtain ⟨_, _, _, _, hinputs⟩ := h
  generalize s.inputs = ps, t.inputs = qs at hinputs ⊢
  cases hinputs with
  | nil => exact .nil
  | cons _ hrest => exact hrest

theorem State.SameControl.cmdReady (h : s.SameControl t) : s.engine.cmdReady = t.engine.cmdReady := by
  obtain ⟨hp, _, _, hv, _⟩ := h
  rw [Engine.cmdReady, Engine.cmdReady, hp, hv]

theorem State.SameControl.accepts_iff (h : s.SameControl t) : s.accepts ↔ t.accepts := by
  have ⟨hr, hcv, _⟩ := h.port
  have ⟨hp, _, _, hv, _⟩ := h
  rw [State.accepts, State.accepts, hr, hcv, hp, hv]

theorem State.SameControl.takes_iff (h : s.SameControl t) : s.takes ↔ t.takes := by
  have ⟨hr, _, _, hy, _⟩ := h.port
  have ⟨_, _, _, hv, _⟩ := h
  rw [State.takes, State.takes, hr, hy, hv]

/-- Operands that ask the same are on one side of the range check (R232). -/
theorem PortSample.SameControl.lt_iff {p q : PortSample} (h : p.SameControl q) :
    p.cmdData < 2 ^ 256 ↔ q.cmdData < 2 ^ 256 := by
  obtain ⟨_, _, _, _, _, hrange⟩ := h
  rw [← inRange_iff, ← inRange_iff, hrange]

/-- States with the same sequencer make the same move and still have the same sequencer (R170, R232). -/
theorem State.SameControl.move (h : s.SameControl t) (hm : Move s s') : ∃ t', Move t t' ∧ s'.SameControl t' := by
  have ⟨hp, hi, hc, hv, _⟩ := h
  have ⟨hrst, _, hop, _, hdata, hrange⟩ := h.port
  have htail := h.inputs_tail
  cases hm with
  | reset hr =>
    refine ⟨_, .reset (hrst ▸ hr), rfl, rfl, rfl, rfl, ?_⟩
    rwa [State.advance_inputs, State.advance_inputs, State.resetEdge_inputs, State.resetEdge_inputs]
  | take h6 ht =>
    refine ⟨_, .take ?_ (h.takes_iff.1 ht), hp, hi, hc, rfl, htail⟩
    rwa [Engine.phaseReserved, ← hp]
  | configure ha ho =>
    refine ⟨_, .configure (h.accepts_iff.1 ha) (hop ▸ ho), ?_⟩
    obtain ⟨b, st, e⟩ := State.configure_eq_respond Config.params.cfgOk.toNat s.port.cmdData
    rw [← hdata ho, e, e]
    exact ⟨hp, hi, rfl, rfl, htail⟩
  | reject ha ho hwhy =>
    have hwhy' : t.engine.configured = false ∨ 2 ^ 256 ≤ t.port.cmdData := by
      rwa [← hc, ← Nat.not_lt, ← h.port.lt_iff, Nat.not_lt]
    refine ⟨_, .reject (h.accepts_iff.1 ha) (hop ▸ ho) hwhy', ?_⟩
    obtain ⟨err, es, et⟩ := State.permute_reject_congr hwhy hc hrange
    rw [es, et]
    exact ⟨hp, hi, hc, rfl, htail⟩
  | load hs =>
    have ⟨ha, ho, hcfg, hx⟩ := hs
    refine ⟨_, .load ⟨h.accepts_iff.1 ha, hop ▸ ho, hc ▸ hcfg, h.port.lt_iff.1 hx⟩, ?_⟩
    rw [State.SameControl, State.advance_engine, State.advance_engine, State.loadOperand_engine, State.loadOperand_engine,
      State.advance_inputs, State.advance_inputs, State.loadOperand_inputs, State.loadOperand_inputs]
    exact ⟨rfl, rfl, hc, hv, htail⟩
  | wait hr h0 ha ht =>
    exact ⟨_, .wait (hrst ▸ hr) (hp ▸ h0) (mt h.accepts_iff.2 ha) (mt h.takes_iff.2 ht), hp, hi, hc, hv, htail⟩
  | layer hr ht h1 h4 =>
    refine ⟨_, .layer (hrst ▸ hr) (mt h.takes_iff.2 ht) (hp ▸ h1) (hp ▸ h4), ?_⟩
    rw [State.SameControl, State.advance_engine, State.advance_engine, State.runLayer_engine, State.runLayer_engine, hp, hi]
    exact ⟨rfl, rfl, hc, hv, htail⟩
  | store hr ht h5 =>
    refine ⟨_, .store (hrst ▸ hr) (mt h.takes_iff.2 ht) (hp ▸ h5), ?_⟩
    rw [State.SameControl, State.advance_engine, State.advance_engine, State.runStore_engine, State.runStore_engine]
    exact ⟨rfl, hi, hc, rfl, htail⟩

end Sys2Proof.Machine

namespace Sys2Proof
open Machine

/-- Settles O48: the relation shows the same outputs, and every move keeps it. -/
theorem unspecifiedStateHasNoInfluence : Obligations.UnspecifiedStateHasNoInfluence := by
  intro s t k h
  refine ⟨h.outputs, fun s' hs' => ?_, fun f hf => h.runSteps_fault hf⟩
  obtain ⟨t', ht', h'⟩ := runSteps_simulates State.SameForHost.move h hs'
  exact ⟨t', ht', h', h'.outputs⟩

/-- Settles O49: every move keeps the sequencers the same, and `cmd_ready` is computed from them. -/
theorem sequencingIsIndependentOfData : Obligations.SequencingIsIndependentOfData := by
  intro s t k h s' hs'
  obtain ⟨t', ht', h'⟩ := runSteps_simulates State.SameControl.move h hs'
  exact ⟨t', ht', h', h'.cmdReady⟩

end Sys2Proof
end

section
/-! The micro-operations as operations on `G` (R110 to R151), the laws of SubRows and MixSlices (R123, R133), and the permutation under
the identity parameters and of the zero grid. -/

namespace Sys2Proof.Machine

variable (P : Params)

/-- A field of `RSP_DATA` after STORE, within one word of `G` (R112). -/
theorem extractLsb'_packStore (g : Grid) (n : Fin 16) {start len : Nat} (h : start + len ≤ 16) :
    (packBytes (storeBytes g)).extractLsb' (16 * n.val + start) len = (g[n]).extractLsb' start len := by
  apply BitVec.eq_of_getLsbD_eq
  intro j hj
  have hbit := packStore_getLsbD g n ⟨start + j, by omega⟩
  rw [BitVec.getLsbD_extractLsb', BitVec.getLsbD_extractLsb', Nat.add_assoc, hbit]

/-- Bit `j` of a word moves to bit `(j + a) mod 16` of its left rotation (R100). -/
theorem rotLeft_getLsbD_add (v : Word) (a : Nat) (j : Fin 16) : (rotLeft v a).getLsbD ((j.val + a) % 16) = v.getLsbD j := by
  rw [rotLeft_getLsbD]
  split
  · rw [show (j.val + a) % 16 - a % 16 = j.val by omega]
    simp [show (j.val + a) % 16 < 16 by omega]
  · rw [show (j.val + a) % 16 + 16 - a % 16 = j.val by omega]
    simp [show (j.val + a) % 16 < 16 by omega]

/-- Rotating a word by 0 changes nothing (R102). -/
theorem rotRight_zero (v : Word) : rotRight v 0 = v := by
  apply BitVec.eq_of_getLsbD_eq
  intro i hi
  rw [rotRight_getLsbD v (by decide), Nat.add_zero, Nat.mod_eq_of_lt hi, decide_eq_true hi, Bool.true_and]

/-- Bit `j` of a word moves to bit `(j - a) mod 16` of its right rotation (R101). -/
theorem rotRight_getLsbD_sub (v : Word) {a : Nat} (h : a < 16) (j : Fin 16) :
    (rotRight v a).getLsbD ((j.val + (16 - a)) % 16) = v.getLsbD j := by
  rw [rotRight_eq_rotLeft v h.le, rotLeft_getLsbD_add]

/-! SubRows. -/

/-- The words of a row after SubRows (R120). -/
theorem subRows_flat (g : Grid) (i j : Fin 4) : (subRows g)[flat i j] = rowWord (subRow (gridRow g i)) j := by
  rw [subRows_word, rowOf_flat, colOf_flat]

/-! MixSlices. -/

/-- The number of indices with a property, counted along the list of all of them. -/
theorem length_filter_flatIndices (p : Fin 16 → Bool) :
    (flatIndices.filter p).length = (Finset.univ.filter fun k => p k = true).card := by
  rw [← List.toFinset_card_of_nodup (flatIndices_nodup.filter p), List.toFinset_filter, flatIndices_eq_finRange,
    List.toFinset_finRange]

/-- MixSlices is linear: it distributes over the XOR of grids (R133). -/
theorem mixSlices_xor (a b : Grid) :
    mixSlices P (Vector.zipWith (· ^^^ ·) a b) = Vector.zipWith (· ^^^ ·) (mixSlices P a) (mixSlices P b) := by
  refine grid_ext fun n => ?_
  rw [xorGrid_word, mixSlices_word, mixSlices_word, mixSlices_word, mixWord_eq_foldl, mixWord_eq_foldl, mixWord_eq_foldl,
    ← foldl_xor_xor, BitVec.xor_self]
  congr 1
  funext acc k
  rw [xorGrid_word]
  split <;> simp

/-- A map of words that XOR passes through passes through an output word of MixSlices (R133). -/
theorem mixWord_map (f : Word → Word) (hxor : ∀ u v, f (u ^^^ v) = f u ^^^ f v) (hzero : f 0 = 0) (g : Grid) (n : Fin 16) :
    mixWord P (g.map f) n = f (mixWord P g n) := by
  have hstep : ∀ (acc : Word) (k : Fin 16),
      (if P.m n k then f acc ^^^ (g.map f)[k] else f acc) = f (if P.m n k then acc ^^^ g[k] else acc) := by
    intro acc k
    rw [apply_ite f, hxor]
    simp
  calc mixWord P (g.map f) n
      = flatIndices.foldl (fun acc k => if P.m n k then acc ^^^ (g.map f)[k] else acc) (f 0) := by rw [hzero, mixWord]
    _ = f (mixWord P g n) := List.foldl_hom f hstep

/-- So MixSlices commutes with applying such a map to every word (R133). -/
theorem mixSlices_map (f : Word → Word) (hxor : ∀ u v, f (u ^^^ v) = f u ^^^ f v) (hzero : f 0 = 0) (g : Grid) :
    mixSlices P (g.map f) = (mixSlices P g).map f := by
  refine grid_ext fun n => ?_
  rw [mixSlices_word, mixWord_map P f hxor hzero]
  simp

/-- MixSlices takes the zero grid to itself (R133). -/
theorem mixSlices_zero : mixSlices P (Vector.replicate 16 0) = Vector.replicate 16 0 := by
  have h := mixSlices_map P (fun _ => 0) (fun _ _ => (BitVec.xor_self).symm) rfl (Vector.replicate 16 0)
  rwa [Vector.map_const', Vector.map_const'] at h

/-! The zero grid through the other layers of a round. -/

theorem loadGrid_zero : loadGrid 0 = Vector.replicate 16 0 := by decide

theorem subRows_zero : subRows (Vector.replicate 16 0) = Vector.replicate 16 0 := by decide

theorem shiftPlanes_zero (i : BitVec 4) : shiftPlanes P i (Vector.replicate 16 0) = Vector.replicate 16 0 := by
  refine grid_ext fun n => ?_
  rw [shiftPlanes_word, rotRight_eq_rotLeft _ (shiftAmount_lt P i n).le]
  simpa using rotLeft_zero_word _

/-! The layers under the identity parameters. -/

/-- Under the identity matrix MixSlices changes nothing (R131, R132). -/
theorem mixSlices_identity (hm : ∀ n k, P.m n k = decide (n = k)) (g : Grid) : mixSlices P g = g := by
  refine grid_ext fun n => BitVec.eq_of_getLsbD_eq fun z _ => ?_
  have hcomm : (fun k : Fin 16 => P.m n k && (g[k]).getLsbD z) = fun k => (g[k]).getLsbD z && decide (k = n) := by
    funext k
    simp only [hm, Bool.and_comm, eq_comm]
  rw [mixSlices_word, mixWord_getLsbD, hcomm, filter_flatIndices_and_eq]
  cases (g[n]).getLsbD z <;> simp

/-- With all amounts 0 ShiftPlanes changes nothing (R140). -/
theorem shiftPlanes_identity (hr : ∀ p r, P.rot p r = 0) (i : BitVec 4) (g : Grid) : shiftPlanes P i g = g := by
  refine grid_ext fun n => ?_
  have hamount : shiftAmount P i n = 0 := by rw [shiftAmount, hr]; rfl
  rw [shiftPlanes_word, hamount, rotRight_zero]

/-- With both constants 0 AddConstant changes nothing (R151). -/
theorem addConstant_identity (h1 : P.c1 = 0) (h2 : P.c2 = 0) (i : BitVec 4) (g : Grid) : addConstant P i g = g := by
  refine grid_ext fun n => ?_
  have hzero : constantOf P n = 0 := by rw [constantOf, h1, h2, ite_self]
  rw [addConstant_word, roundConstant, hzero, rotLeft_zero_word]
  exact BitVec.xor_zero

/-- Where a round is SubRows alone, the sixteen rounds cancel in pairs (R123, R180). -/
theorem roundsGrid_of_subRows (h : ∀ i g, roundGrid P i g = subRows g) (g : Grid) : roundsGrid P g = g := by
  have heven : Even roundIndices.length := by decide
  simp only [roundsGrid, h]
  rw [List.foldl_const, subRows_involutive.iterate_even heven]
  rfl

end Sys2Proof.Machine

namespace Sys2Proof
open Machine

/-- Settles O16: `exec` of LOAD loads the presented operand, whose words are its bits. -/
theorem loadSplitsTheOperand : Obligations.LoadSplitsTheOperand := by
  intro s rnd
  refine ⟨loadGrid s.port.cmdData, fun n j => ?_, ?_⟩
  · rw [loadGrid_word, operandWord_getLsbD, decide_eq_true j.isLt, Bool.true_and]
  · rw [exec_load, State.loadOperand, State.setGrid_setUPC]

/-- Settles O17: the data is Store's layout, read back field by field. -/
theorem storeEmitsTheGrid : Obligations.StoreEmitsTheGrid := by
  intro s rnd
  refine ⟨packBytes (storeBytes s.engine.g), fun n => ⟨?_, ?_, ?_⟩, exec_store rnd⟩
  · rw [← Nat.mul_assoc]
    exact extractLsb'_packStore _ n (start := 0) (by decide)
  · rw [Nat.mul_add, ← Nat.mul_assoc]
    exact extractLsb'_packStore _ n (start := 8) (by decide)
  · exact (extractLsb'_packStore _ n (start := 0) (by decide)).trans BitVec.extractLsb'_eq_self

/-- Settles O18: row by row, the four lines of the row function. -/
theorem subrowsAppliesTheFourLines : Obligations.SubrowsAppliesTheFourLines := by
  intro s rnd
  refine ⟨subRows s.engine.g, fun i => ?_, exec_subrows rnd⟩
  simp only [subRows_flat]
  exact ⟨rfl, rfl, rfl, rfl⟩

/-- Settles O19: the slice view of MixSlices, the parity counted over all indices. -/
theorem mixslicesMultipliesByTheMatrix : Obligations.MixslicesMultipliesByTheMatrix := by
  intro s rnd
  refine ⟨mixSlices Config.params s.engine.g, fun n z => ?_, exec_mixslices rnd⟩
  rw [mixSlices_word, mixWord_getLsbD, length_filter_flatIndices]
  simp only [Bool.and_eq_true]
  rfl

/-- Settles O20: each word is rotated right by the amount of its row. -/
theorem shiftplanesRotatesEveryWordRight : Obligations.ShiftplanesRotatesEveryWordRight := by
  intro s i
  refine ⟨shiftPlanes Config.params i s.engine.g, fun r c j => ?_, exec_shiftplanes i⟩
  rw [shiftPlanes_word, shiftAmount, rowOf_flat, parityOf_eq]
  exact rotRight_getLsbD_sub _ (BitVec.isLt _) j

/-- Settles O21: what is XORed in is the rotated constant of the word's column, and `RND` moves on. -/
theorem addconstantInjectsTheRoundConstants : Obligations.AddconstantInjectsTheRoundConstants := by
  intro s i
  refine ⟨addConstant Config.params i s.engine.g, fun r c j => ?_, fun hi => ?_, fun hi => ?_⟩
  · rw [addConstant_word, State.word, BitVec.xor_comm, ← BitVec.xor_assoc, BitVec.xor_self, BitVec.zero_xor, roundConstant,
      constantOf_flat, Nat.add_assoc]
    exact rotLeft_getLsbD_add _ _ j
  · rw [exec_addconstant, hi, phaseAfterRound_last]
    rfl
  · have hround : BitVec.ofNat 4 (i.toNat + 1) = i + 1 := by
      rw [BitVec.ofNat_add, BitVec.ofNat_toNat, BitVec.setWidth_eq]; rfl
    rw [exec_addconstant, phaseAfterRound_of_ne hi, hround]

/-- Settles O28: SubRows is its own inverse. -/
theorem subRowsIsABijection : Obligations.SubRowsIsABijection := ⟨subRows_involutive.bijective, subRows_involutive⟩

/-- Settles O29: XOR, zero and rotation pass through the fold that computes a word. -/
theorem mixSlicesIsLinear : Obligations.MixSlicesIsLinear := fun P a b k =>
  ⟨mixSlices_xor P a b, mixSlices_zero P,
    mixSlices_map P (fun v => rotLeft v k) (fun u v => rotLeft_xor u v k) (rotLeft_zero_word k) a⟩

/-- Settles O33: the first three layers keep the zero grid, and the fourth turns it into the constants. -/
theorem firstRoundOfZeroGivesTheConstants : Obligations.FirstRoundOfZeroGivesTheConstants := by
  intro P
  rw [roundGrid, loadGrid_zero, subRows_zero, mixSlices_zero, shiftPlanes_zero, addConstant_zero]

/-- Settles O34: a round is SubRows alone, sixteen of them cancel, and Store undoes Load. -/
theorem identityParametersPermuteToTheOperand : Obligations.IdentityParametersPermuteToTheOperand := by
  intro P h1 h2 hr hm x hx
  have hround : ∀ i g, roundGrid P i g = subRows g := fun i g => by
    rw [roundGrid, mixSlices_identity P hm, shiftPlanes_identity P hr, addConstant_identity P h1 h2]
  rw [permuteBytes, roundsGrid_of_subRows P hround, packStore_loadGrid, BitVec.toNat_ofNat, Nat.mod_eq_of_lt hx]

end Sys2Proof
end
